-- ==== Sys2Proof/Word.lean ====
section
/-! DEFINITION. The word types of the machine (spec/00_scope.md R5, R6). All values are unsigned. -/

namespace Sys2Proof

/-- An 8-bit value: a general register, a timer, a byte of memory, an immediate KK. -/
abbrev Byte := BitVec 8

/-- A 16-bit value: I, pc, a stack entry, an instruction word, the keyboard latch. -/
abbrev Word := BitVec 16

/-- One hexadecimal digit of an instruction word (spec/30_encoding.md R51). -/
abbrev Nibble := BitVec 4

/-- A 12-bit immediate NNN (spec/30_encoding.md R52). -/
abbrev Imm12 := BitVec 12

/-- A register number 0 to 15 (spec/10_state.md R10). -/
abbrev RegIdx := Fin 16

/-- A key symbol 0x0 to 0xF (spec/10_state.md R20). -/
abbrev Key := Fin 16

/-- The number of VF, the flag register (spec/10_state.md R12). -/
abbrev vf : RegIdx := 15

end Sys2Proof
end

