-- ==== Sys2Proof/Config.lean ====
section
/-! DEFINITION. The fixed parameters of the hardware (spec/00_scope.md R3) and the ones it leaves open (R4).
An open one is a constant WITHOUT A BODY: nothing can be proved about its value, so a claim holds whatever it is. -/

namespace Sys2Proof.Config

/-- Memory has 4096 bytes, addresses 0x000 to 0xFFF (R3). -/
abbrev memSize : Nat := 4096

/-- The highest address of memory (R3). -/
abbrev maxAddr : Nat := 0xFFF

/-- The font table lies at 0x000 (R3). -/
abbrev fontBase : Nat := 0x000

/-- The font table has 80 bytes (R3). -/
abbrev fontSize : Nat := 80

/-- A font table: the type of the parameter FONT (R4). -/
abbrev Font : Type := Vector Byte fontSize

/-- One glyph has 5 bytes (R4; spec/92_eei_decisions.md D4). -/
abbrev glyphStride : Nat := 5

/-- A program is loaded at 0x200 (R3). -/
abbrev progBase : Nat := 0x200

/-- A program has at most 3584 bytes (R3). -/
abbrev maxRom : Nat := 3584

/-- The call stack holds 16 entries (R3). -/
abbrev stackDepth : Nat := 16

/-- FREE VALUE. The byte `random_byte()` gives at its n-th free draw (spec/43_random_display.md R110: any value, under no
law). Assumption log 7. -/
opaque randomByte : Nat → Byte

/-- OPEN PARAMETER VWRAP: whether a sprite row below display row 31 wraps to the top or is discarded
(spec/43_random_display.md R112). Assumption log 8. -/
opaque vwrap : Bool

/-- OPEN PARAMETER behind KEY_PICK: a number for each set of pressed keys, from which `pickKey` takes a member of the set
(spec/44_keypad_timers.md R124). Assumption log 9. -/
opaque keyChoice : Word → Nat

end Sys2Proof.Config
end

