-- ==== Sys2Proof/Syntax.lean ====
section
/-! DEFINITION. The instructions: one constructor per row of the opcode table (spec/30_encoding.md R55). -/

namespace Sys2Proof

/-- The 34 instruction forms, in the order of R55. Operands carry their bounds in their types: a register number and a
sprite height are below 16, KK has 8 bits, NNN 12 bits (R52). -/
inductive Instr where
  /-- 00E0 CLS -/
  | cls
  /-- 00EE RET -/
  | ret
  /-- 1NNN JP nnn -/
  | jp (nnn : Imm12)
  /-- 2NNN CALL nnn -/
  | call (nnn : Imm12)
  /-- 3XKK SE Vx, kk -/
  | seImm (x : RegIdx) (kk : Byte)
  /-- 4XKK SNE Vx, kk -/
  | sneImm (x : RegIdx) (kk : Byte)
  /-- 5XY0 SE Vx, Vy -/
  | seReg (x y : RegIdx)
  /-- 6XKK LD Vx, kk -/
  | ldImm (x : RegIdx) (kk : Byte)
  /-- 7XKK ADD Vx, kk -/
  | addImm (x : RegIdx) (kk : Byte)
  /-- 8XY0 LD Vx, Vy -/
  | ldReg (x y : RegIdx)
  /-- 8XY1 OR Vx, Vy -/
  | orReg (x y : RegIdx)
  /-- 8XY2 AND Vx, Vy -/
  | andReg (x y : RegIdx)
  /-- 8XY3 XOR Vx, Vy -/
  | xorReg (x y : RegIdx)
  /-- 8XY4 ADD Vx, Vy -/
  | addReg (x y : RegIdx)
  /-- 8XY5 SUB Vx, Vy -/
  | subReg (x y : RegIdx)
  /-- 8XY6 SHR Vx; the field Y is decoded and not used (R58) -/
  | shr (x y : RegIdx)
  /-- 8XY7 SUBN Vx, Vy -/
  | subnReg (x y : RegIdx)
  /-- 8XYE SHL Vx; the field Y is decoded and not used (R58) -/
  | shl (x y : RegIdx)
  /-- 9XY0 SNE Vx, Vy -/
  | sneReg (x y : RegIdx)
  /-- ANNN LD I, nnn -/
  | ldI (nnn : Imm12)
  /-- BNNN JP V0, nnn -/
  | jpV0 (nnn : Imm12)
  /-- CXKK RND Vx, kk -/
  | rnd (x : RegIdx) (kk : Byte)
  /-- DXYN DRW Vx, Vy, n -/
  | drw (x y : RegIdx) (n : Fin 16)
  /-- EX9E SKP Vx -/
  | skp (x : RegIdx)
  /-- EXA1 SKNP Vx -/
  | sknp (x : RegIdx)
  /-- FX07 LD Vx, DT -/
  | ldVxDT (x : RegIdx)
  /-- FX0A LD Vx, K -/
  | ldVxK (x : RegIdx)
  /-- FX15 LD DT, Vx -/
  | ldDTVx (x : RegIdx)
  /-- FX18 LD ST, Vx -/
  | ldSTVx (x : RegIdx)
  /-- FX1E ADD I, Vx -/
  | addI (x : RegIdx)
  /-- FX29 LD F, Vx -/
  | ldF (x : RegIdx)
  /-- FX33 LD B, Vx -/
  | ldB (x : RegIdx)
  /-- FX55 LD [I], Vx: stores V[0] to V[x] -/
  | storeRegs (x : RegIdx)
  /-- FX65 LD Vx, [I]: loads V[0] to V[x] -/
  | loadRegs (x : RegIdx)
  deriving DecidableEq, Repr

end Sys2Proof
end

