-- ==== Sys2Proof/Decode.lean ====
section
/-! DEFINITION. The decoder (spec/30_encoding.md R54), total on all 65536 words, and the encoder (R51, R52). -/

namespace Sys2Proof

/-! ## Fields of an instruction word (R52) -/

/-- `w[15:12]`, the first digit of the pattern. -/
def opField (w : Word) : Nibble := w.extractLsb' 12 4

/-- A nibble as a register number. -/
def regOf (n : Nibble) : RegIdx := ⟨n.toNat, n.isLt⟩

/-- A register number as a nibble. -/
def nibbleOf (x : Fin 16) : Nibble := BitVec.ofNat 4 x.val

/-- X = `w[11:8]`, the shifted nibble, a number 0 to 15. -/
def xField (w : Word) : RegIdx := regOf (w.extractLsb' 8 4)

/-- Y = `w[7:4]`. -/
def yField (w : Word) : RegIdx := regOf (w.extractLsb' 4 4)

/-- `w[3:0]`: N in DXYN, the function code in format R. -/
def nField (w : Word) : Nibble := w.extractLsb' 0 4

/-- KK = `w[7:0]`; in format X the function byte. -/
def kkField (w : Word) : Byte := w.extractLsb' 0 8

/-- NNN = `w[11:0]`. -/
def nnnField (w : Word) : Imm12 := w.extractLsb' 0 12

/-! ## Bytes and words (spec/20_memory.md R30) -/

/-- Big-endian: the byte at the lower address supplies bits 15 to 8. -/
def wordOfBytes (hi lo : Byte) : Word := hi ++ lo

/-- The byte of a word that stands at the lower address. -/
def hiByte (w : Word) : Byte := w.extractLsb' 8 8

/-- The byte of a word that stands at the higher address. -/
def loByte (w : Word) : Byte := w.extractLsb' 0 8

/-! ## The decoder -/

/-- Why a decode is refused. -/
inductive DecodeError where
  /-- The word selects no row of R55 (R57): UNSUPPORTED in R54. -/
  | unsupportedOpcode (w : Word)
  /-- Fewer than two bytes were given. -/
  | truncated
  deriving DecidableEq, Repr

/-- Major opcode 0x0: all four digits must match (R54). -/
def decode0 (w : Word) : Except DecodeError Instr :=
  if w = 0x00E0#16 then .ok .cls
  else if w = 0x00EE#16 then .ok .ret
  else .error (.unsupportedOpcode w)

/-- Major opcode 0x8: the function code is `w[3:0]` (R54). -/
def decode8 (w : Word) : Except DecodeError Instr :=
  if nField w = 0x0#4 then .ok (.ldReg (xField w) (yField w))
  else if nField w = 0x1#4 then .ok (.orReg (xField w) (yField w))
  else if nField w = 0x2#4 then .ok (.andReg (xField w) (yField w))
  else if nField w = 0x3#4 then .ok (.xorReg (xField w) (yField w))
  else if nField w = 0x4#4 then .ok (.addReg (xField w) (yField w))
  else if nField w = 0x5#4 then .ok (.subReg (xField w) (yField w))
  else if nField w = 0x6#4 then .ok (.shr (xField w) (yField w))
  else if nField w = 0x7#4 then .ok (.subnReg (xField w) (yField w))
  else if nField w = 0xE#4 then .ok (.shl (xField w) (yField w))
  else .error (.unsupportedOpcode w)

/-- Major opcode 0xE: the function byte is `w[7:0]` (R54). -/
def decodeE (w : Word) : Except DecodeError Instr :=
  if kkField w = 0x9E#8 then .ok (.skp (xField w))
  else if kkField w = 0xA1#8 then .ok (.sknp (xField w))
  else .error (.unsupportedOpcode w)

/-- Major opcode 0xF: the function byte is `w[7:0]` (R54). -/
def decodeF (w : Word) : Except DecodeError Instr :=
  if kkField w = 0x07#8 then .ok (.ldVxDT (xField w))
  else if kkField w = 0x0A#8 then .ok (.ldVxK (xField w))
  else if kkField w = 0x15#8 then .ok (.ldDTVx (xField w))
  else if kkField w = 0x18#8 then .ok (.ldSTVx (xField w))
  else if kkField w = 0x1E#8 then .ok (.addI (xField w))
  else if kkField w = 0x29#8 then .ok (.ldF (xField w))
  else if kkField w = 0x33#8 then .ok (.ldB (xField w))
  else if kkField w = 0x55#8 then .ok (.storeRegs (xField w))
  else if kkField w = 0x65#8 then .ok (.loadRegs (xField w))
  else .error (.unsupportedOpcode w)

/-- The decoder of R54: a classification on the major opcode, every literal digit of a pattern matched exactly. -/
def decode (w : Word) : Except DecodeError Instr :=
  if opField w = 0x0#4 then decode0 w
  else if opField w = 0x1#4 then .ok (.jp (nnnField w))
  else if opField w = 0x2#4 then .ok (.call (nnnField w))
  else if opField w = 0x3#4 then .ok (.seImm (xField w) (kkField w))
  else if opField w = 0x4#4 then .ok (.sneImm (xField w) (kkField w))
  else if opField w = 0x5#4 then
    if nField w = 0x0#4 then .ok (.seReg (xField w) (yField w)) else .error (.unsupportedOpcode w)
  else if opField w = 0x6#4 then .ok (.ldImm (xField w) (kkField w))
  else if opField w = 0x7#4 then .ok (.addImm (xField w) (kkField w))
  else if opField w = 0x8#4 then decode8 w
  else if opField w = 0x9#4 then
    if nField w = 0x0#4 then .ok (.sneReg (xField w) (yField w)) else .error (.unsupportedOpcode w)
  else if opField w = 0xA#4 then .ok (.ldI (nnnField w))
  else if opField w = 0xB#4 then .ok (.jpV0 (nnnField w))
  else if opField w = 0xC#4 then .ok (.rnd (xField w) (kkField w))
  else if opField w = 0xD#4 then .ok (.drw (xField w) (yField w) (regOf (nField w)))
  else if opField w = 0xE#4 then decodeE w
  else decodeF w

/-- Decoding a stream of bytes: one instruction and the bytes after it. Every instruction has two bytes, the more
significant one first (R50; spec/20_memory.md R30). -/
def decodeBytes : List Byte → Except DecodeError (Instr × List Byte)
  | hi :: lo :: rest =>
    match decode (wordOfBytes hi lo) with
    | .ok i => .ok (i, rest)
    | .error e => .error e
  | [_] => .error .truncated
  | [] => .error .truncated

/-! ## The encoder (R51, R52) -/

/-- A word from its four digits, bits 15 to 12 first. -/
def digits (a b c d : Nibble) : Word := a ++ b ++ c ++ d

/-- Format A: `op NNN`. -/
def formatA (op : Nibble) (nnn : Imm12) : Word := op ++ nnn

/-- Formats I and X: `op X KK`, where format X has a function byte in the place of KK. -/
def formatI (op : Nibble) (x : RegIdx) (kk : Byte) : Word := op ++ nibbleOf x ++ kk

/-- Formats R and D: `op X Y n`, where format R has a function code in the place of N. -/
def formatR (op : Nibble) (x y : RegIdx) (n : Nibble) : Word := digits op (nibbleOf x) (nibbleOf y) n

/-- The word of an instruction, from the patterns of R55. -/
def encode : Instr → Word
  | .cls => digits 0x0 0x0 0xE 0x0
  | .ret => digits 0x0 0x0 0xE 0xE
  | .jp nnn => formatA 0x1 nnn
  | .call nnn => formatA 0x2 nnn
  | .seImm x kk => formatI 0x3 x kk
  | .sneImm x kk => formatI 0x4 x kk
  | .seReg x y => formatR 0x5 x y 0x0
  | .ldImm x kk => formatI 0x6 x kk
  | .addImm x kk => formatI 0x7 x kk
  | .ldReg x y => formatR 0x8 x y 0x0
  | .orReg x y => formatR 0x8 x y 0x1
  | .andReg x y => formatR 0x8 x y 0x2
  | .xorReg x y => formatR 0x8 x y 0x3
  | .addReg x y => formatR 0x8 x y 0x4
  | .subReg x y => formatR 0x8 x y 0x5
  | .shr x y => formatR 0x8 x y 0x6
  | .subnReg x y => formatR 0x8 x y 0x7
  | .shl x y => formatR 0x8 x y 0xE
  | .sneReg x y => formatR 0x9 x y 0x0
  | .ldI nnn => formatA 0xA nnn
  | .jpV0 nnn => formatA 0xB nnn
  | .rnd x kk => formatI 0xC x kk
  | .drw x y n => formatR 0xD x y (nibbleOf n)
  | .skp x => formatI 0xE x 0x9E
  | .sknp x => formatI 0xE x 0xA1
  | .ldVxDT x => formatI 0xF x 0x07
  | .ldVxK x => formatI 0xF x 0x0A
  | .ldDTVx x => formatI 0xF x 0x15
  | .ldSTVx x => formatI 0xF x 0x18
  | .addI x => formatI 0xF x 0x1E
  | .ldF x => formatI 0xF x 0x29
  | .ldB x => formatI 0xF x 0x33
  | .storeRegs x => formatI 0xF x 0x55
  | .loadRegs x => formatI 0xF x 0x65

/-! ## The host's view of the decoder -/

/-- The instruction word whose low `nbits` bits are those of `w`, the bits above them 0. Every instruction is ONE word of 16
bits (R50), so bit k of the table's numbering is bit k of the word. -/
def tableWord (nbits w : Nat) : Word := BitVec.ofNat 16 (w % 2 ^ nbits)

/-- What the decoder reads from the bytes of `tableWord nbits w`, laid out as the hardware stores them; none where it
refuses. -/
def decodeTableWord (nbits w : Nat) : Option Instr :=
  match decodeBytes [hiByte (tableWord nbits w), loByte (tableWord nbits w)] with
  | .ok (i, _) => some i
  | .error _ => none

end Sys2Proof
end

