-- ==== Sys2Proof/Machine/Flags.lean ====
section
/-! DEFINITION. The flag computations: what VF receives (spec/10_state.md R12). Every operand is the value before the
instruction (spec/41_register_alu.md R81). The collision flag of DXYN is computed by the drawing itself (Machine/Display.lean). -/

namespace Sys2Proof.Machine

/-- VF is always written with the full byte 0x00 or 0x01 (R12). -/
def flagByte (b : Bool) : Byte := if b then 0x01 else 0x00

/-- 8XY4: 1 if the sum is above 255 (spec/41_register_alu.md R89). -/
def carryOut (a b : Byte) : Bool := 255 < a.toNat + b.toNat

/-- 8XY5 with (V[X], V[Y]) and 8XY7 with (V[Y], V[X]): 1 if the first is not below the second (R90, R92). -/
def noBorrow (a b : Byte) : Bool := b.toNat ≤ a.toNat

/-- 8XY6: the bit shifted out on the right (R91). -/
def shiftedOutRight (a : Byte) : Bool := a.getLsbD 0

/-- 8XYE: the bit shifted out on the left (R93). -/
def shiftedOutLeft (a : Byte) : Bool := a.getLsbD 7

end Sys2Proof.Machine
end

