-- ==== Sys2Proof/Machine/Operands.lean ====
section
/-! DEFINITION. The operand forms: results, targets and addresses, computed from operand values
(spec/30_encoding.md R53; spec/41_register_alu.md R80; spec/42_index_memory.md R100). -/

namespace Sys2Proof.Machine

/-! ## 8-bit results (R80: unsigned, modulo 256) -/

/-- 7XKK and 8XY4: the sum modulo 256. -/
def sum8 (a b : Byte) : Byte := a + b

/-- 8XY5 and 8XY7: the difference modulo 256. -/
def diff8 (a b : Byte) : Byte := a - b

/-- 8XY6: a logical right shift by one. -/
def shiftRight1 (a : Byte) : Byte := a >>> 1

/-- 8XYE: a left shift by one, modulo 256. -/
def shiftLeft1 (a : Byte) : Byte := a <<< 1

/-! ## Immediates, targets and index values (R53) -/

/-- NNN zero-extended to 16 bits. -/
def zext12 (nnn : Imm12) : Word := nnn.setWidth 16

/-- A byte zero-extended to 16 bits. -/
def zext8 (v : Byte) : Word := v.setWidth 16

/-- BNNN: V0 + NNN, not reduced modulo 4096 (spec/40_control_flow.md R78). -/
def offsetTarget (v0 : Byte) (nnn : Imm12) : Word := zext8 v0 + zext12 nnn

/-- FX1E: the sum modulo 65536 (spec/42_index_memory.md R103). -/
def indexSum (index : Word) (v : Byte) : Word := index + zext8 v

/-- FX29: the address of the glyph of the digit in the low nibble (R104). The high nibble is ignored, by the spec's own
decision D5 (assumption log 10). -/
def glyphAddress (v : Byte) : Word := BitVec.ofNat 16 (Config.fontBase + Config.glyphStride * (v.toNat % 16))

/-! ## Memory addresses (R100; spec/20_memory.md R37) -/

/-- I + k, a natural number that is never reduced. -/
def effectiveAddress (index : Word) (k : Nat) : Nat := index.toNat + k

/-- Whether a transfer of `count` bytes from I on stays inside memory; a transfer of no bytes always does (R36). -/
def rangeInMemory (index : Word) (count : Nat) : Bool := effectiveAddress index count ≤ Config.maxAddr + 1 || count == 0

/-- FX33: the decimal digits of a byte, hundreds, tens, units (R105). -/
def bcdDigits (v : Byte) : List Byte :=
  [BitVec.ofNat 8 (v.toNat / 100), BitVec.ofNat 8 (v.toNat / 10 % 10), BitVec.ofNat 8 (v.toNat % 10)]

/-! ## Keys (spec/44_keypad_timers.md R120, R124) -/

/-- Whether the 8-bit value is the symbol of a pressed key; a value above 0x0F is no key's symbol, so it is never pressed
(R120; the spec's own decision D20, assumption log 11). -/
def keyPressed (keys : Word) (v : Byte) : Bool := keys.getLsbD v.toNat

/-- The pressed keys, in rising order. -/
def pressedKeys (keys : Word) : List Key := (List.finRange 16).filter (fun k => keys.getLsbD k.val)

/-- KEY_PICK: some member of the pressed keys, none when there is none (R124). With one key it is that key; with several,
which one is open (assumption log 9). -/
def pickKey (keys : Word) : Option Key :=
  match pressedKeys keys with
  | [] => none
  | [k] => some k
  | k :: k' :: ks => some ((k :: k' :: ks).getD (Config.keyChoice keys % (k :: k' :: ks).length) k)

/-- A key symbol as a byte, 0x00 to 0x0F. -/
def keyByte (k : Key) : Byte := BitVec.ofNat 8 k.val

/-! ## Sprite coordinates (spec/43_random_display.md R112) -/

/-- The column of the sprite's left edge. -/
def spriteColumn (v : Byte) : Nat := v.toNat % 64

/-- The row of the sprite's top edge. -/
def spriteRow (v : Byte) : Nat := v.toNat % 32

end Sys2Proof.Machine
end

