-- ==== Sys2Proof/Machine/Memory.lean ====
section
/-! DEFINITION. Main memory MEM (spec/10_state.md R22, R23; spec/20_memory.md R38): a list of address and byte pairs in one
canonical form, over the reset contents. -/

namespace Sys2Proof.Machine

/-- The glyphs of the digits 0 to 7 (R23). -/
def fontLow : List Byte :=
  [0xF0, 0x90, 0x90, 0x90, 0xF0] ++ [0x20, 0x60, 0x20, 0x20, 0x70] ++
  [0xF0, 0x10, 0xF0, 0x80, 0xF0] ++ [0xF0, 0x10, 0xF0, 0x10, 0xF0] ++
  [0x90, 0x90, 0xF0, 0x10, 0x10] ++ [0xF0, 0x80, 0xF0, 0x10, 0xF0] ++
  [0xF0, 0x80, 0xF0, 0x90, 0xF0] ++ [0xF0, 0x10, 0x20, 0x40, 0x40]

/-- The glyphs of the digits 8 to F (R23). -/
def fontHigh : List Byte :=
  [0xF0, 0x90, 0xF0, 0x90, 0xF0] ++ [0xF0, 0x90, 0xF0, 0x10, 0xF0] ++
  [0xF0, 0x90, 0xF0, 0x90, 0x90] ++ [0xE0, 0x90, 0xE0, 0x90, 0xE0] ++
  [0xF0, 0x80, 0x80, 0x80, 0xF0] ++ [0xE0, 0x90, 0x90, 0x90, 0xE0] ++
  [0xF0, 0x80, 0xF0, 0x80, 0xF0] ++ [0xF0, 0x80, 0xF0, 0x80, 0x80]

/-- The 80 bytes R23 gives as the default value of the parameter FONT (spec/00_scope.md R4). PRESUMED: the spec takes them
from general knowledge (assumption log 5). -/
def font : List Byte := fontLow ++ fontHigh

/-- The default of the parameter FONT (R23). -/
def defaultFont : Config.Font := ⟨font.toArray, rfl⟩

/-- What an unlisted address reads as: the default font in 0x000 to 0x04F (its base is 0x000, spec/00_scope.md R3), zero
elsewhere. A machine with another FONT lists, from reset on, the bytes in which its table differs (`Memory.ofFont`). -/
def background (a : Nat) : Byte := (font[a]?).getD 0

/-- Memory: the written bytes, by rising address, none equal to the background. -/
abbrev Memory := List Host.Cell

/-- The byte at an address. -/
def Memory.read : Memory → Nat → Byte
  | [], a => background a
  | (b, v) :: m, a => if b = a then v else Memory.read m a

/-- Remove every entry for an address. -/
def Memory.erase : Memory → Nat → Memory
  | [], _ => []
  | (b, v) :: m, a => if b = a then Memory.erase m a else (b, v) :: Memory.erase m a

/-- Put an entry in its place by rising address. -/
def Memory.insert : Memory → Nat → Byte → Memory
  | [], a, v => [(a, v)]
  | (b, w) :: m, a, v => if a < b then (a, v) :: (b, w) :: m else (b, w) :: Memory.insert m a v

/-- Write one byte; writing the background removes the entry. -/
def Memory.write (m : Memory) (a : Nat) (v : Byte) : Memory :=
  if v = background a then m.erase a else (m.erase a).insert a v

/-- Write bytes at rising addresses from `base`. -/
def Memory.writeBytes : Memory → Nat → List Byte → Memory
  | m, _, [] => m
  | m, base, v :: vs => Memory.writeBytes (m.write base v) (base + 1) vs

/-- Memory after reset in a machine whose font table is `glyphs`: that table in 0x000 to 0x04F, zero elsewhere (R26). -/
def Memory.ofFont (glyphs : Config.Font) : Memory := Memory.writeBytes [] Config.fontBase glyphs.toList

/-- The canonical form: addresses strictly rising and below 4096, no entry equal to the background. -/
def Memory.wf : Memory → Bool
  | [] => true
  | (a, v) :: m => a ≤ Config.maxAddr && v != background a && m.all (fun c => a < c.1) && Memory.wf m

end Sys2Proof.Machine
end

