-- ==== Sys2Proof/Machine/State.lean ====
section
/-! DEFINITION. The state of the machine as plain data (spec/10_state.md), and the state right after reset (R26). -/

namespace Sys2Proof.Machine

/-- The run state RUN (R19). -/
inductive RunState where
  /-- Instructions are fetched and executed. -/
  | running
  /-- An FX0A waits for a key; `t` is its target register. -/
  | awaitingKey (t : RegIdx)
  deriving DecidableEq, Repr

/-- The display buffer DISP (R24): 32 rows from the top, 64 pixels each. Within a row the most significant bit is column 0,
so that a row written in hexadecimal reads from left to right. -/
abbrev Display := Vector (BitVec 64) 32

/-- Why the machine stops. -/
inductive Fault where
  /-- A fetch, FX33, FX55, FX65 or DXYN would access an address above 0xFFF (spec/60_exceptions.md R143). Raised by `runCycle` and
  by the meanings of these four. The spec names the fault and says that nothing has changed, so stopping here is safe. -/
  | memoryAddressOutOfRange
  /-- The fetched word selects no row of the opcode table (R142). Raised by `runCycle` at decode. Safe, as above. -/
  | unsupportedOpcode (w : Word)
  /-- 2NNN with 16 entries on the stack (R141). Raised by the meaning of CALL. Safe, as above. -/
  | stackOverflow
  /-- 00EE with an empty stack (R144). Raised by the meaning of RET. Safe, as above. -/
  | stackUnderflow
  /-- `load_program` with more than 3584 bytes (spec/45_host_operations.md R132): no per-cycle fault, but the failing result
  that ends the history (spec/70_reset_and_hazards.md R162). Raised by the host operation only. Safe, as above. -/
  | romTooLarge
  deriving DecidableEq, Repr

/-- What the model gives no meaning to. -/
inductive Refusal where
  /-- An instruction without a meaning yet. No arm of `exec` answers it now. Safe: nothing is proved of a refused step. -/
  | notModelled (mnemonic : String)
  /-- `load_program` for the second time, after a `run_cycle` or during a key wait: "The core gives no meaning to" it and "a
  model refuses such a history" (R133). Raised by the host operation. Safe. -/
  | loadOutOfOrder
  /-- `skip_instruction` elsewhere than directly after a faulting `run_cycle`: no legal history (R162). Raised by the host
  operation. Safe. -/
  | skipWithoutFault
  deriving DecidableEq, Repr

/-- The operations the host issues (spec/00_scope.md R8; spec/45_host_operations.md R138). `reset` is `State.reset`: it
happens once, before all of these (R161). -/
inductive HostOp where
  | loadProgram (bytes : List Byte)
  | runCycle
  | tickTimers
  /-- `pressed` has bit k set when key k is pressed. -/
  | setKeys (pressed : Word)
  | displaySnapshot
  | skipInstruction
  deriving DecidableEq, Repr

/-- A result with content that an operation returned to the host (R138). A plain `Ok` is not recorded: it says nothing beyond
the step having gone on (R131; assumption log 26). -/
inductive HostResult where
  /-- The trigger output of `tick_timers` (spec/60_exceptions.md R150, R152). -/
  | beep (fired : Bool)
  /-- The 2048 pixels of `display_snapshot` (R136). -/
  | pixels (s : Vector Bool 2048)
  /-- The fault of a `run_cycle` after which the host goes on (R131, R148). -/
  | fault (f : Fault)
  deriving DecidableEq, Repr

/-- Where the history of operations stands (R133, R162). The MODEL's own. -/
inductive Phase where
  /-- After reset: `load_program` may still be issued. -/
  | fresh
  /-- A program has been loaded or a cycle run. -/
  | started
  /-- The last operation was a `run_cycle` that faulted: `skip_instruction` may be issued. -/
  | faulted
  deriving DecidableEq, Repr

/-- The host's side of the interface. The MODEL's own fields (assumption logs 1, 7, 26, 28). -/
structure HostSide where
  /-- The operations the host issues next, oldest first; when there is none, it issues `run_cycle`. -/
  agenda : List HostOp
  /-- The results it has been given, oldest first. -/
  results : List HostResult
  phase : Phase
  /-- The bytes `rnd` it supplies to the next executions of CXKK; when there is none, `rnd` is a free value. -/
  rnds : List Byte
  /-- How many free values of `rnd` have been drawn. -/
  draws : Nat
  deriving DecidableEq, Repr

/-- The whole state: the spec's tuple (V, I, pc, STACK, DT, ST, MEM, DISP, KEYS, RUN), and the host's side. -/
structure State where
  /-- The general registers V0 to VF (R10). -/
  V : Vector Byte 16
  /-- The index register (R13). -/
  I : Word
  /-- The program counter (R15). -/
  pc : Word
  /-- The call stack STACK, bottom first (R14). -/
  stack : List Word
  /-- The delay timer (R18). -/
  DT : Byte
  /-- The sound timer (R18). -/
  ST : Byte
  /-- Main memory MEM (R22). -/
  mem : Memory
  /-- The display buffer DISP (R24). -/
  disp : Display
  /-- The keyboard latch KEYS, bit k set when key k is pressed (R20). -/
  keys : Word
  /-- The run state RUN (R19). -/
  run : RunState
  /-- The host's side of the interface: the model's own. -/
  host : HostSide
  deriving DecidableEq, Repr

/-- The host's side when nothing has been asked of the core. DESIGN CHOICE (assumption log 28). -/
def HostSide.reset : HostSide :=
  { agenda := [], results := [], phase := .fresh, rnds := [], draws := 0 }

/-- The state after `reset` (R26; spec/70_reset_and_hazards.md R160) with the default of the parameter FONT (R23). Memory
lists nothing: it reads as the background. -/
def State.reset : State where
  V := Vector.replicate 16 0
  I := 0
  pc := 0x0200
  stack := []
  DT := 0
  ST := 0
  mem := []
  disp := Vector.replicate 32 0
  keys := 0
  run := .running
  host := HostSide.reset

/-- The state after `reset` in a machine whose parameter FONT is `glyphs` (spec/00_scope.md R4). FONT enters the machine here
and nowhere else (R23). `State.reset` is the case of the default font (`State.resetWith_default`). -/
def State.resetWith (glyphs : Config.Font) : State := { State.reset with mem := Memory.ofFont glyphs }

end Sys2Proof.Machine
end

