-- ==== Sys2Proof/Machine/Ops.lean ====
section
/-! DEFINITION. The shared operations over registers, pc, stack and memory, and the one way a fault is raised. -/

namespace Sys2Proof.Machine

/-- What a step ends in. -/
abbrev Result := Host.Outcome State Fault Refusal

/-! ## Updates of one field -/

def State.setI (s : State) (v : Word) : State := { s with I := v }
def State.setPc (s : State) (v : Word) : State := { s with pc := v }
def State.setStack (s : State) (v : List Word) : State := { s with stack := v }
def State.setDT (s : State) (v : Byte) : State := { s with DT := v }
def State.setST (s : State) (v : Byte) : State := { s with ST := v }
def State.setMem (s : State) (v : Memory) : State := { s with mem := v }
def State.setDisp (s : State) (v : Display) : State := { s with disp := v }
def State.setKeys (s : State) (v : Word) : State := { s with keys := v }
def State.setRun (s : State) (v : RunState) : State := { s with run := v }
def State.setHost (s : State) (v : HostSide) : State := { s with host := v }

/-! ## General registers (spec/10_state.md R10: all 16 readable and writable, none hardwired) -/

/-- V[x]. -/
def State.reg (s : State) (x : RegIdx) : Byte := s.V[x]

/-- V[x] <- v. -/
def State.setReg (s : State) (x : RegIdx) (v : Byte) : State := { s with V := s.V.set x v }

/-- VF <- 0x00 or 0x01 (R12). -/
def State.setFlag (s : State) (b : Bool) : State := s.setReg vf (flagByte b)

/-- The result goes to V[x] and the flag to VF, the flag last: it stands when x is 15 (spec/41_register_alu.md R82;
assumption log 12). -/
def State.setRegFlag (s : State) (x : RegIdx) (v : Byte) (b : Bool) : State := (s.setReg x v).setFlag b

/-- V[0] to V[x] receive the bytes at I, I + 1, ..., I + x (spec/42_index_memory.md R107). -/
def State.loadRegRange (s : State) (x : RegIdx) : State :=
  { s with V := Vector.ofFn fun i : Fin 16 =>
      if i.val ≤ x.val then s.mem.read (effectiveAddress s.I i.val) else s.reg i }

/-- V[0], V[1], ..., V[x] (R106). -/
def State.regRange (s : State) (x : RegIdx) : List Byte := s.V.toList.take (x.val + 1)

/-! ## Program counter (spec/10_state.md R16) -/

/-- The ordinary advance. A fetch needs pc <= 0xFFE, so the sum does not wrap in a cycle (R16; assumption log 22). -/
def State.advance (s : State) : State := s.setPc (s.pc + 2)

/-- A skip: pc + 4 when the condition holds, else pc + 2. -/
def State.skipIf (s : State) (c : Bool) : State := s.setPc (if c then s.pc + 4 else s.pc + 2)

/-! ## Faults (spec/60_exceptions.md R140, R145, R148) -/

/-- Raise a fault: the cycle ends with it as its result. There is no trap entry: nothing is saved, no mode or mask changes,
and control goes nowhere inside the machine (R148). The outcome holds no state, since nothing has changed (R145). What the
host does then is `deliverFault` (Machine/HostOps.lean), and what its `skip_instruction` does is `skipInstruction` there. -/
def raise (f : Fault) : Result := .fault f

/-- Go on only when `count` bytes from I on lie in memory; checked as a whole before anything is written
(spec/20_memory.md R36; assumption logs 13, 14). -/
def State.withRange (s : State) (count : Nat) (k : Result) : Result :=
  if rangeInMemory s.I count then k else raise .memoryAddressOutOfRange

/-! ## Call stack (spec/10_state.md R14) -/

/-- Push the address of the next word and jump; the stack holds at most 16 entries (spec/40_control_flow.md R73). -/
def State.callTo (s : State) (target : Word) : Result :=
  if s.stack.length < Config.stackDepth then .next ((s.setStack (s.stack ++ [s.pc + 2])).setPc target)
  else raise .stackOverflow

/-- Pop the last entry into pc (R71). -/
def State.popToPc (s : State) : Result :=
  match s.stack.getLast? with
  | some a => .next ((s.setStack s.stack.dropLast).setPc a)
  | none => raise .stackUnderflow

/-! ## The random input (spec/43_random_display.md R110) -/

/-- One fresh byte per execution of CXKK: the next one the host supplies, or a free value when it supplies none
(assumption log 7). -/
def State.drawRnd (s : State) : Byte × State :=
  match s.host.rnds with
  | b :: bs => (b, s.setHost { s.host with rnds := bs })
  | [] => (Config.randomByte s.host.draws, s.setHost { s.host with draws := s.host.draws + 1 })

end Sys2Proof.Machine
end

