-- ==== Sys2Proof/Machine/Alu.lean ====
section
/-! DEFINITION. Register load, arithmetic, logic and shift (spec/41_register_alu.md R80 to R93). Each reads its operands
before it writes (R81) and ends with the ordinary advance; none can fault. -/

namespace Sys2Proof.Machine

/-- 6XKK: V[X] <- KK (R83). -/
def execLdImm (x : RegIdx) (kk : Byte) (s : State) : Result := .next (s.setReg x kk).advance

/-- 7XKK: V[X] <- V[X] + KK modulo 256, no flag (R84). -/
def execAddImm (x : RegIdx) (kk : Byte) (s : State) : Result := .next (s.setReg x (sum8 (s.reg x) kk)).advance

/-- 8XY0: V[X] <- V[Y] (R85). -/
def execLdReg (x y : RegIdx) (s : State) : Result := .next (s.setReg x (s.reg y)).advance

/-- 8XY1: bitwise OR, VF untouched (R86). -/
def execOrReg (x y : RegIdx) (s : State) : Result := .next (s.setReg x (s.reg x ||| s.reg y)).advance

/-- 8XY2: bitwise AND, VF untouched (R87). -/
def execAndReg (x y : RegIdx) (s : State) : Result := .next (s.setReg x (s.reg x &&& s.reg y)).advance

/-- 8XY3: bitwise exclusive OR, VF untouched (R88). -/
def execXorReg (x y : RegIdx) (s : State) : Result := .next (s.setReg x (s.reg x ^^^ s.reg y)).advance

/-- 8XY4: add, VF = carry out (R89). -/
def execAddReg (x y : RegIdx) (s : State) : Result :=
  .next (s.setRegFlag x (sum8 (s.reg x) (s.reg y)) (carryOut (s.reg x) (s.reg y))).advance

/-- 8XY5: V[X] - V[Y], VF = no borrow (R90). -/
def execSubReg (x y : RegIdx) (s : State) : Result :=
  .next (s.setRegFlag x (diff8 (s.reg x) (s.reg y)) (noBorrow (s.reg x) (s.reg y))).advance

/-- 8XY6: shift V[X] right by one, VF = the bit shifted out; Y is ignored (R91). -/
def execShr (x _y : RegIdx) (s : State) : Result :=
  .next (s.setRegFlag x (shiftRight1 (s.reg x)) (shiftedOutRight (s.reg x))).advance

/-- 8XY7: V[Y] - V[X] into V[X], VF = no borrow (R92). -/
def execSubnReg (x y : RegIdx) (s : State) : Result :=
  .next (s.setRegFlag x (diff8 (s.reg y) (s.reg x)) (noBorrow (s.reg y) (s.reg x))).advance

/-- 8XYE: shift V[X] left by one, VF = the bit shifted out; Y is ignored (R93). -/
def execShl (x _y : RegIdx) (s : State) : Result :=
  .next (s.setRegFlag x (shiftLeft1 (s.reg x)) (shiftedOutLeft (s.reg x))).advance

end Sys2Proof.Machine
end

