-- ==== Sys2Proof/Machine/Control.lean ====
section
/-! DEFINITION. Return, jump, call and skips (spec/40_control_flow.md R70 to R78). -/

namespace Sys2Proof.Machine

/-- 00EE: pop the stack into pc, with no further advance; StackUnderflow when it is empty (R71). -/
def execRet (s : State) : Result := s.popToPc

/-- 1NNN: pc <- NNN, unchecked (R72). -/
def execJp (nnn : Imm12) (s : State) : Result := .next (s.setPc (zext12 nnn))

/-- 2NNN: push pc + 2, then pc <- NNN; StackOverflow when the stack holds 16 entries (R73). -/
def execCall (nnn : Imm12) (s : State) : Result := s.callTo (zext12 nnn)

/-- 3XKK: skip if V[X] = KK (R74). -/
def execSeImm (x : RegIdx) (kk : Byte) (s : State) : Result := .next (s.skipIf (s.reg x == kk))

/-- 4XKK: skip if V[X] differs from KK (R75). -/
def execSneImm (x : RegIdx) (kk : Byte) (s : State) : Result := .next (s.skipIf (s.reg x != kk))

/-- 5XY0: skip if V[X] = V[Y] (R76). -/
def execSeReg (x y : RegIdx) (s : State) : Result := .next (s.skipIf (s.reg x == s.reg y))

/-- 9XY0: skip if V[X] differs from V[Y] (R77). -/
def execSneReg (x y : RegIdx) (s : State) : Result := .next (s.skipIf (s.reg x != s.reg y))

/-- BNNN: pc <- V[0] + NNN; the register is always V0 (R78). -/
def execJpV0 (nnn : Imm12) (s : State) : Result := .next (s.setPc (offsetTarget (s.reg 0) nnn))

end Sys2Proof.Machine
end

