-- ==== Sys2Proof/Machine/IndexMemory.lean ====
section
/-! DEFINITION. Index register and memory transfer (spec/42_index_memory.md R100 to R107). No load or store changes I (R101);
every transfer is checked as a whole before any byte moves (R100). -/

namespace Sys2Proof.Machine

/-- ANNN: I <- NNN, zero-extended (R102). -/
def execLdI (nnn : Imm12) (s : State) : Result := .next (s.setI (zext12 nnn)).advance

/-- FX1E: I <- I + V[X] modulo 65536, no flag (R103). -/
def execAddI (x : RegIdx) (s : State) : Result := .next (s.setI (indexSum s.I (s.reg x))).advance

/-- FX29: I <- the address of the glyph of the digit V[X] (R104). -/
def execLdF (x : RegIdx) (s : State) : Result := .next (s.setI (glyphAddress (s.reg x))).advance

/-- FX33: the three decimal digits of V[X] to I, I + 1, I + 2 (R105). -/
def execLdB (x : RegIdx) (s : State) : Result :=
  s.withRange 3 (.next (s.setMem (s.mem.writeBytes (effectiveAddress s.I 0) (bcdDigits (s.reg x)))).advance)

/-- FX55: V[0] to V[X] to memory from I on (R106). -/
def execStoreRegs (x : RegIdx) (s : State) : Result :=
  s.withRange (x.val + 1) (.next (s.setMem (s.mem.writeBytes (effectiveAddress s.I 0) (s.regRange x))).advance)

/-- FX65: V[0] to V[X] from memory from I on (R107). -/
def execLoadRegs (x : RegIdx) (s : State) : Result :=
  s.withRange (x.val + 1) (.next (s.loadRegRange x).advance)

end Sys2Proof.Machine
end

