-- ==== Sys2Proof/Machine/KeypadTimers.lean ====
section
/-! DEFINITION. Keypad and timer instructions (spec/44_keypad_timers.md R120 to R126). None can fault. -/

namespace Sys2Proof.Machine

/-- EX9E: skip if the key V[X] is pressed (R120). -/
def execSkp (x : RegIdx) (s : State) : Result := .next (s.skipIf (keyPressed s.keys (s.reg x)))

/-- EXA1: skip if the key V[X] is not pressed (R121). -/
def execSknp (x : RegIdx) (s : State) : Result := .next (s.skipIf (!keyPressed s.keys (s.reg x)))

/-- FX07: V[X] <- DT (R122). -/
def execLdVxDT (x : RegIdx) (s : State) : Result := .next (s.setReg x s.DT).advance

/-- FX0A, the cycle that fetches it: enter the wait; pc stays at this instruction (R123). -/
def execLdVxK (x : RegIdx) (s : State) : Result := .next (s.setRun (.awaitingKey x))

/-- FX0A, every later cycle: with no key pressed nothing changes; otherwise V[t] receives a pressed key, pc moves past the
instruction and the wait ends (R124). -/
def completeWait (t : RegIdx) (s : State) : Result :=
  match pickKey s.keys with
  | none => .next s
  | some k => .next ((s.setReg t (keyByte k)).advance.setRun .running)

/-- FX15: DT <- V[X] (R125). -/
def execLdDTVx (x : RegIdx) (s : State) : Result := .next (s.setDT (s.reg x)).advance

/-- FX18: ST <- V[X]; the instruction itself never signals the beeper (R126). -/
def execLdSTVx (x : RegIdx) (s : State) : Result := .next (s.setST (s.reg x)).advance

end Sys2Proof.Machine
end

