-- ==== Sys2Proof/Machine/Display.lean ====
section
/-! DEFINITION. The operations on the display buffer (spec/10_state.md R24): one pixel, clearing, drawing a sprite as
spec/43_random_display.md R112 loops over it, and the snapshot (spec/45_host_operations.md R136). -/

namespace Sys2Proof.Machine

/-- DISP[y][x]. -/
def Display.pixel (d : Display) (y : Fin 32) (x : Fin 64) : Bool := (d[y]).getMsbD x.val

/-- Flip DISP[y][x]. -/
def Display.flip (d : Display) (y : Fin 32) (x : Fin 64) : Display :=
  d.set y (d[y] ^^^ BitVec.twoPow 64 (63 - x.val))

/-- Every pixel 0. -/
def Display.clear : Display := Vector.replicate 32 0

/-- The display row a sprite row falls on, counted from the top: a row below 31 wraps to the top when `vwrap` holds and is
discarded otherwise. -/
def visibleRow (vwrap : Bool) (y : Nat) : Option (Fin 32) :=
  if y ≤ 31 then some (Fin.ofNat 32 y)
  else if vwrap then some (Fin.ofNat 32 (y - 32))
  else none

/-- One pixel of a sprite row: bit 7 - c of the byte is its c-th pixel from the left, and columns wrap. The Bool is `hit`. -/
def drawPixel (b : Byte) (x0 : Nat) (y : Fin 32) (acc : Display × Bool) (c : Nat) : Display × Bool :=
  if b.getLsbD (7 - c) then
    (Display.flip acc.1 y (Fin.ofNat 64 (x0 + c)), acc.2 || Display.pixel acc.1 y (Fin.ofNat 64 (x0 + c)))
  else acc

/-- The eight pixels of a sprite row, left to right. -/
def drawRow (b : Byte) (x0 : Nat) (y : Fin 32) (acc : Display × Bool) : Display × Bool :=
  (List.range 8).foldl (drawPixel b x0 y) acc

/-- One sprite row: row r of the sprite is the byte at `base + r`. -/
def drawSpriteRow (vwrap : Bool) (m : Memory) (base x0 y0 : Nat) (acc : Display × Bool) (r : Nat) : Display × Bool :=
  match visibleRow vwrap (y0 + r) with
  | some y => drawRow (m.read (base + r)) x0 y acc
  | none => acc

/-- The rows of a sprite, top row first, from a cleared `hit`. -/
def drawSprite (vwrap : Bool) (m : Memory) (base x0 y0 n : Nat) (d : Display) : Display × Bool :=
  (List.range n).foldl (drawSpriteRow vwrap m base x0 y0) (d, false)

/-- The snapshot: S[y * 64 + x] = DISP[y][x] (R136). -/
def Display.snapshot (d : Display) : Vector Bool 2048 :=
  Vector.ofFn fun k => Display.pixel d ⟨k.val / 64, by omega⟩ ⟨k.val % 64, by omega⟩

end Sys2Proof.Machine
end

