-- ==== Sys2Proof/Machine/RandomDisplay.lean ====
section
/-! DEFINITION. Random number and display instructions (spec/43_random_display.md R110 to R113). -/

namespace Sys2Proof.Machine

/-- CXKK: V[X] <- rnd AND KK, `rnd` being one fresh byte from outside (R110). -/
def execRnd (x : RegIdx) (kk : Byte) (s : State) : Result :=
  .next (s.drawRnd.2.setReg x (s.drawRnd.1 &&& kk)).advance

/-- 00E0: every pixel 0 (R111). -/
def execCls (s : State) : Result := .next (s.setDisp Display.clear).advance

/-- DXYN for a given VWRAP: XOR an 8 by N sprite from I onto the display, VF = collision (R112). The coordinates are read
before VF is written; all N bytes are checked before anything is drawn, and N = 0 checks nothing. -/
def drawWith (vwrap : Bool) (x y : RegIdx) (n : Fin 16) (s : State) : Result :=
  let drawn := drawSprite vwrap s.mem (effectiveAddress s.I 0) (spriteColumn (s.reg x)) (spriteRow (s.reg y)) n.val s.disp
  s.withRange n.val (.next ((s.setDisp drawn.1).setFlag drawn.2).advance)

/-- DXYN with this machine's VWRAP (R112; assumption log 8). -/
def execDrw (x y : RegIdx) (n : Fin 16) (s : State) : Result := drawWith Config.vwrap x y n s

end Sys2Proof.Machine
end

