-- ==== Sys2Proof/Machine/Cycle.lean ====
section
/-! DEFINITION. One `run_cycle`: fetch, decode, execute (spec/45_host_operations.md R130). -/

namespace Sys2Proof.Machine

/-- The fetch `MemRead(pc, 2)`: big-endian, any parity, none when pc is above 0xFFE; the address never wraps
(spec/20_memory.md R30, R32, R33; assumption log 13). -/
def State.fetchWord (s : State) : Option Word :=
  if s.pc.toNat + 1 ≤ Config.maxAddr then
    some (wordOfBytes (s.mem.read s.pc.toNat) (s.mem.read (s.pc.toNat + 1)))
  else none

/-- `run_cycle` (R130): while a key is awaited nothing is fetched; otherwise the stages run in order and the first that
faults ends the cycle (spec/60_exceptions.md R146). -/
def runCycle (s : State) : Result :=
  match s.run with
  | .awaitingKey t => completeWait t s
  | .running =>
    match s.fetchWord with
    | none => raise .memoryAddressOutOfRange
    | some w =>
      match decode w with
      | .error _ => raise (.unsupportedOpcode w)
      | .ok i => exec i s

/-- Where a word can be placed for the next fetch: at pc, or at 0x200 when pc is too high to be fetched from. -/
def State.fetchPlace (s : State) : Word := if s.pc.toNat + 1 ≤ Config.maxAddr then s.pc else 0x0200

/-- The state in which the very next operation is a `run_cycle` that fetches `w`: the two bytes are stored at pc, the machine
is running, and the host's agenda is empty. -/
def State.placeFetchWord (s : State) (w : Word) : State :=
  { s with
    pc := s.fetchPlace
    mem := s.mem.writeBytes s.fetchPlace.toNat [hiByte w, loByte w]
    run := .running
    host := { s.host with agenda := [] } }

end Sys2Proof.Machine
end

