-- ==== Sys2Proof/Machine/HostOps.lean ====
section
/-! DEFINITION. The operations of the host (spec/45_host_operations.md R138; spec/60_exceptions.md R150; spec/70_reset_and_hazards.md
R162) and the step of the machine, which is one operation (spec/00_scope.md R8). -/

namespace Sys2Proof.Machine

/-! ## The operations themselves -/

/-- `tick_timers()`: both timers down by one, floored at 0, and the beeper trigger, true exactly when ST was 1
(R150, R152). -/
def tickTimers (s : State) : State × Bool :=
  ((s.setDT (if s.DT = 0 then 0 else s.DT - 1)).setST (if s.ST = 0 then 0 else s.ST - 1), s.ST == 1)

/-- `set_keys(pressed)`: replace the whole latch and nothing else (R134). -/
def setKeys (pressed : Word) (s : State) : State := s.setKeys pressed

/-- `load_program(bytes)`: copy the bytes to 0x200 and up; `none` is `RomTooLarge`, with nothing written (R132). -/
def loadProgram (bytes : List Byte) (s : State) : Option State :=
  if romFits bytes then some (s.setMem (s.mem.writeBytes Config.progBase bytes)) else none

/-- `skip_instruction()`: pc <- pc + 2 modulo 65536 and nothing else (R137). -/
def skipInstruction (s : State) : State := s.setPc (s.pc + 2)

/-! ## The history (R133, R162; assumption logs 1, 2, 18, 19) -/

/-- Record a result that the host is given. -/
def State.record (s : State) (r : HostResult) : State :=
  s.setHost { s.host with results := s.host.results ++ [r] }

def State.setPhase (s : State) (p : Phase) : State := s.setHost { s.host with phase := p }

def State.setAgenda (s : State) (ops : List HostOp) : State := s.setHost { s.host with agenda := ops }

/-- After an operation that is neither a cycle nor a load: a fault is no longer the last thing that happened. -/
def Phase.settle : Phase → Phase
  | .fresh => .fresh
  | .started => .started
  | .faulted => .started

def State.settle (s : State) : State := s.setPhase s.host.phase.settle

/-- Whether the host goes on after a fault by issuing this operation next: any but another `run_cycle`, which it must not
issue (spec/60_exceptions.md R148). -/
def HostOp.goesOn : HostOp → Bool
  | .runCycle => false
  | .loadProgram _ => true
  | .tickTimers => true
  | .setKeys _ => true
  | .displaySnapshot => true
  | .skipInstruction => true

/-- Deliver a fault to the host. The state is as it was before the cycle (R145). If the host goes on, the fault is recorded
and its next operation follows; otherwise it halts and the run ends with the fault (R148; assumption log 2). -/
def deliverFault (f : Fault) (s : State) : Result :=
  match s.host.agenda with
  | [] => .fault f
  | op :: _ => if op.goesOn then .next ((s.record (.fault f)).setPhase .faulted) else .fault f

/-- Carry out `run_cycle`. -/
def performCycle (s : State) : Result :=
  match runCycle s with
  | .next t => .next (t.setPhase .started)
  | .fault f => deliverFault f s
  | .refused r => .refused r

/-- Carry out `load_program`: at most once, before the first `run_cycle`, not during a key wait; any other use is refused.
`RomTooLarge` ends the history (R132, R133, R162; assumption log 18). -/
def performLoad (bytes : List Byte) (s : State) : Result :=
  if s.host.phase = .fresh ∧ s.run = .running then
    match loadProgram bytes s with
    | some t => .next (t.setPhase .started)
    | none => raise .romTooLarge
  else .refused .loadOutOfOrder

/-- Carry out `skip_instruction`: directly after a faulting `run_cycle` only (R162; assumption log 19). -/
def performSkip (s : State) : Result :=
  if s.host.phase = .faulted then .next (skipInstruction s).settle else .refused .skipWithoutFault

/-- Carry out one operation. -/
def perform (op : HostOp) (s : State) : Result :=
  match op with
  | .runCycle => performCycle s
  | .loadProgram bytes => performLoad bytes s
  | .tickTimers => .next ((tickTimers s).1.record (.beep (tickTimers s).2)).settle
  | .setKeys pressed => .next (setKeys pressed s).settle
  | .displaySnapshot => .next (s.record (.pixels s.disp.snapshot)).settle
  | .skipInstruction => performSkip s

/-- The next operation of the host: the first of its agenda, or `run_cycle` when the agenda is empty. -/
def nextOperation (s : State) : Result :=
  match s.host.agenda with
  | [] => performCycle s
  | op :: ops => perform op (s.setAgenda ops)

end Sys2Proof.Machine
end

