-- ==== Sys2Proof/Machine/Step.lean ====
section
/-! DEFINITION. One step of the machine, and the state that runs a given word next. -/

namespace Sys2Proof.Machine

/-- A step of the machine is one operation of the host (spec/00_scope.md R8). -/
def step (s : State) : Host.Outcome State Fault Refusal := nextOperation s

/-- `s` with the word of `nbits` and `w` (`tableWord`) where the next step fetches and runs it. -/
def State.withFetchWord (s : State) (nbits w : Nat) : State := s.placeFetchWord (tableWord nbits w)

end Sys2Proof.Machine
end

