-- ==== Sys2Proof/Safety.lean ====
section
/-! DEFINITION. What a well-behaved state is, and what a safe run is, in the terms claims use. -/

namespace Sys2Proof.Machine

/-- What every step keeps. -/
structure State.Inv (s : State) : Prop where
  /-- Memory is in its canonical form. -/
  memory : s.mem.wf = true
  /-- The call stack holds at most 16 entries (spec/10_state.md R14). -/
  stack : s.stack.length ≤ Config.stackDepth
  /-- While a key is awaited, the history has begun and pc holds the address of the FX0A that is waiting (R15, R27). -/
  waiting : ∀ t, s.run = .awaitingKey t →
    s.host.phase = .started ∧ ∃ w, s.fetchWord = some w ∧ decode w = .ok (.ldVxK t)

/-- What every operation but `skip_instruction` keeps: pc never exceeds 0x10FE (spec/45_host_operations.md R137), every
stack entry lies in 0x0002 to 0x1000 (spec/40_control_flow.md R71), and a wait is at an address a fetch can reach. -/
structure State.PcBound (s : State) : Prop where
  pc : s.pc.toNat ≤ 0x10FE
  entries : ∀ a ∈ s.stack, 0x0002 ≤ a.toNat ∧ a.toNat ≤ 0x1000
  waiting : ∀ t, s.run = .awaitingKey t → s.pc.toNat ≤ 0xFFE

/-- A run of `n` steps without a fault and without a refusal. -/
def SafeRun (n : Nat) (s : State) : Prop := ∃ t, Sys2Proof.core.run n s = .next t

/-- The step is a `run_cycle` that begins in the state `Running` and fetches and decodes the instruction `i`. -/
def State.Executes (s : State) (i : Instr) : Prop :=
  (s.host.agenda = [] ∨ ∃ ops, s.host.agenda = .runCycle :: ops) ∧ s.run = .running ∧
    ∃ w, s.fetchWord = some w ∧ decode w = .ok i

end Sys2Proof.Machine
end

