-- ==== Sys2Proof/Certificates/Slice0/Obligations.lean ====
section
/-! DEFINITION. The statements about the machine. A frame is written as an equation: `t = { s with V := t.V, pc := ... }` says
that every field of the state but V and pc is as it was, every byte of memory, every timer and the host's side included. -/

open Sys2Proof Sys2Proof.Machine

/-! ## Words used by the statements -/

/-- The instructions that write VF as a flag (spec/10_state.md R12). -/
def Sys2Proof.Machine.writesFlag : Instr → Bool
  | .addReg _ _ | .subReg _ _ | .shr _ _ | .subnReg _ _ | .shl _ _ | .drw _ _ _ => true
  | .cls | .ret | .jp _ | .call _ | .seImm _ _ | .sneImm _ _ | .seReg _ _ | .ldImm _ _ | .addImm _ _ => false
  | .ldReg _ _ | .orReg _ _ | .andReg _ _ | .xorReg _ _ | .sneReg _ _ | .ldI _ | .jpV0 _ | .rnd _ _ => false
  | .skp _ | .sknp _ | .ldVxDT _ | .ldVxK _ | .ldDTVx _ | .ldSTVx _ | .addI _ | .ldF _ | .ldB _ => false
  | .storeRegs _ | .loadRegs _ => false

/-- The registers an instruction names as destinations (spec/10_state.md R10); FX0A writes its register in a later cycle. -/
def Sys2Proof.Machine.namesDestination : Instr → RegIdx → Bool
  | .ldImm x _, r | .addImm x _, r | .ldReg x _, r | .orReg x _, r | .andReg x _, r | .xorReg x _, r => r == x
  | .addReg x _, r | .subReg x _, r | .shr x _, r | .subnReg x _, r | .shl x _, r | .rnd x _, r | .ldVxDT x, r => r == x
  | .loadRegs x, r => r ≤ x
  | .cls, _ | .ret, _ | .jp _, _ | .call _, _ | .seImm _ _, _ | .sneImm _ _, _ | .seReg _ _, _ | .sneReg _ _, _ => false
  | .ldI _, _ | .jpV0 _, _ | .drw _ _ _, _ | .skp _, _ | .sknp _, _ | .ldVxK _, _ | .ldDTVx _, _ | .ldSTVx _, _ => false
  | .addI _, _ | .ldF _, _ | .ldB _, _ | .storeRegs _, _ => false

/-- The sprite of DXYN has a 1 bit on the pixel (row, col): bit 7 - c of the byte at I + r, for a sprite row r whose display
row y0 + r is on the display, or wraps by 32 when `vwrap` holds, and a column x0 + c modulo 64 (spec/43_random_display.md R112). -/
def Sys2Proof.Machine.spriteCovers (vwrap : Bool) (s : State) (x y : RegIdx) (n : Fin 16) (row : Fin 32) (col : Fin 64) :
    Prop :=
  ∃ r c : Nat, r < n.val ∧ c < 8 ∧ (s.mem.read (effectiveAddress s.I r)).getLsbD (7 - c) = true ∧
    col.val = ((s.reg x).toNat % 64 + c) % 64 ∧
    (row.val = (s.reg y).toNat % 32 + r ∨ vwrap = true ∧ row.val + 32 = (s.reg y).toNat % 32 + r)

/-- Whether the byte is the symbol of a pressed key (spec/44_keypad_timers.md R120). -/
def Sys2Proof.Machine.isPressed (keys : Word) (v : Byte) : Bool :=
  (List.finRange 16).any fun k : Key => v.toNat == k.val && keys.getLsbD k.val

/-- The table of the new pc (spec/10_state.md section 4). -/
def Sys2Proof.Machine.tabledPc (i : Instr) (s : State) : Word :=
  match i with
  | .jp nnn | .call nnn => BitVec.ofNat 16 nnn.toNat
  | .jpV0 nnn => BitVec.ofNat 16 ((s.reg 0).toNat + nnn.toNat)
  | .ret => s.stack.getLastD s.pc
  | .seImm x kk => if s.reg x = kk then s.pc + 4 else s.pc + 2
  | .sneImm x kk => if s.reg x = kk then s.pc + 2 else s.pc + 4
  | .seReg x y => if s.reg x = s.reg y then s.pc + 4 else s.pc + 2
  | .sneReg x y => if s.reg x = s.reg y then s.pc + 2 else s.pc + 4
  | .skp x => if isPressed s.keys (s.reg x) then s.pc + 4 else s.pc + 2
  | .sknp x => if isPressed s.keys (s.reg x) then s.pc + 2 else s.pc + 4
  | .ldVxK _ => s.pc
  | .cls | .ldImm _ _ | .addImm _ _ | .ldReg _ _ | .orReg _ _ | .andReg _ _ | .xorReg _ _ | .addReg _ _ => s.pc + 2
  | .subReg _ _ | .shr _ _ | .subnReg _ _ | .shl _ _ | .ldI _ | .rnd _ _ | .drw _ _ _ | .ldVxDT _ => s.pc + 2
  | .ldDTVx _ | .ldSTVx _ | .addI _ | .ldF _ | .ldB _ | .storeRegs _ | .loadRegs _ => s.pc + 2

/-! ## Encoding -/

/-- Decoding the word of any instruction gives that instruction back, every operand included. -/
def Obligations.DecodingAnEncodedInstructionGivesItBack : Prop :=
  ∀ i : Instr, decode (encode i) = .ok i

/-- Each legal word is the word of exactly the instruction it decodes to: no bit of it is dropped, the unused Y of SHR and
SHL included. -/
def Obligations.EncodingADecodedWordGivesItBack : Prop :=
  ∀ (w : Word) (i : Instr), decode w = .ok i → encode i = w

/-- R55: a word decodes exactly when it selects a row of the table, to the instruction of that row, and no two rows overlap. -/
def Obligations.AWordDecodesToTheRowItSelects : Prop :=
  (∀ (w : Word) (i : Instr), decode w = .ok i → rowOf i ∈ opcodeTable ∧ w &&& (rowOf i).mask = (rowOf i).pattern) ∧
  (∀ (w : Word) (r : OpRow), r ∈ opcodeTable → w &&& r.mask = r.pattern → ∃ i, decode w = .ok i ∧ rowOf i = r)

/-- R57: the illegal words are exactly the six groups, and running into one raises UnsupportedOpcode with the whole word.
"changes no state": a fault outcome holds no state; what the host sees after it is `AFaultChangesNothingAndTheHostMaySkip`. -/
def Obligations.IllegalWordsAreTheListedGroups : Prop :=
  (∀ w : Word, decode w = .error (.unsupportedOpcode w) ↔
    (w.toNat ≤ 0x0FFF ∧ w.toNat ≠ 0x00E0 ∧ w.toNat ≠ 0x00EE) ∨
    (w.toNat / 4096 = 0x5 ∧ w.toNat % 16 ≠ 0) ∨
    (w.toNat / 4096 = 0x8 ∧ w.toNat % 16 ∈ [0x8, 0x9, 0xA, 0xB, 0xC, 0xD, 0xF]) ∨
    (w.toNat / 4096 = 0x9 ∧ w.toNat % 16 ≠ 0) ∨
    (w.toNat / 4096 = 0xE ∧ w.toNat % 256 ∉ [0x9E, 0xA1]) ∨
    (w.toNat / 4096 = 0xF ∧ w.toNat % 256 ∉ [0x07, 0x0A, 0x15, 0x18, 0x1E, 0x29, 0x33, 0x55, 0x65])) ∧
  (∀ (w : Word) (e : DecodeError), decode w = .error e → e = .unsupportedOpcode w) ∧
  (∀ (s : State) (w : Word), s.host.agenda = [] → s.run = .running → s.fetchWord = some w →
    decode w = .error (.unsupportedOpcode w) → step s = .fault (.unsupportedOpcode w))

/-- A few words, written out digit by digit from the patterns, decode to what they stand for: one of each format. -/
def Obligations.SomeWordsOfEachFormatDecode : Prop :=
  decode 0x00EE = .ok .ret ∧ decode 0x1204 = .ok (.jp 0x204) ∧ decode 0x4C11 = .ok (.sneImm 0xC 0x11) ∧
  decode 0x8AB4 = .ok (.addReg 0xA 0xB) ∧ decode 0xD125 = .ok (.drw 1 2 5) ∧ decode 0xF365 = .ok (.loadRegs 3) ∧
  decode 0x0000 = .error (.unsupportedOpcode 0x0000) ∧ decode 0x5AB1 = .error (.unsupportedOpcode 0x5AB1)

/-! ## The cycle -/

/-- R130: with nothing else on the host's agenda a step is one `run_cycle`: while a key is awaited it is the second half of FX0A
and nothing is fetched; otherwise fetch (big-endian, MemoryAddressOutOfRange above 0xFFE), decode (UnsupportedOpcode), execute,
in this order. Around exec, the step only marks that the history has begun (assumption log 1). -/
def Obligations.AStepFetchesDecodesAndExecutes : Prop :=
  ∀ s : State, s.host.agenda = [] →
    (∀ t, s.run = .awaitingKey t → ∃ u, completeWait t s = .next u ∧
      step s = .next { u with host := { u.host with phase := .started } }) ∧
    (s.run = .running → s.pc.toNat > 0xFFE → step s = .fault .memoryAddressOutOfRange) ∧
    (s.run = .running → s.pc.toNat ≤ 0xFFE → ∀ w : Word,
      w.toNat = 256 * (s.mem.read s.pc.toNat).toNat + (s.mem.read (s.pc.toNat + 1)).toNat →
      (∀ e, decode w = .error e → step s = .fault (.unsupportedOpcode w)) ∧
      (∀ i, decode w = .ok i →
        (∀ t, exec i s = .next t → step s = .next { t with host := { t.host with phase := .started } }) ∧
        (∀ f, exec i s = .fault f → step s = .fault f)))

/-- `run_cycle` on the agenda does what `run_cycle` with an empty agenda does, and leaves the rest of the agenda. -/
def Obligations.APlannedCycleIsTheSameCycle : Prop :=
  ∀ (s t : State) (ops : List HostOp), s.host.agenda = [] → step s = .next t →
    step { s with host := { s.host with agenda := .runCycle :: ops } } =
      .next { t with host := { t.host with agenda := ops } }

/-- A faulting cycle changes nothing of the machine; if the host goes on, it is given the fault, and its `skip_instruction`
moves pc by 2 modulo 65536 and nothing else. If it would issue another `run_cycle` instead, the run ends with the fault.
(Decisions D9, D11 of spec/92_eei_decisions.md; assumption logs 2, 14, 19.) -/
def Obligations.AFaultChangesNothingAndTheHostMaySkip : Prop :=
  ∀ (s : State) (f : Fault) (ops : List HostOp), s.host.agenda = [] → step s = .fault f →
    (∃ t u, step { s with host := { s.host with agenda := .runCycle :: .skipInstruction :: ops } } = .next t ∧
      t = { s with host := { s.host with
        agenda := .skipInstruction :: ops, results := s.host.results ++ [.fault f], phase := .faulted } } ∧
      step t = .next u ∧ u.pc.toNat = (s.pc.toNat + 2) % 65536 ∧
      u = { s with pc := u.pc, host := { t.host with agenda := ops, phase := .started } }) ∧
    step { s with host := { s.host with agenda := .runCycle :: .runCycle :: ops } } = .fault f

/-- A word placed by `withFetchWord` is the very next one to be run. -/
def Obligations.AWordPlacedForFetchRunsNext : Prop :=
  ∀ (s : State) (w : Nat) (i : Instr), decodeTableWord 16 w = some i →
    (s.withFetchWord 16 w).Executes i ∧
    ∀ t, exec i (s.withFetchWord 16 w) = .next t →
      step (s.withFetchWord 16 w) = .next { t with host := { t.host with phase := .started } }

/-! ## Control transfer -/

/-- R71: RET pops the last entry into pc and writes nothing else; with an empty stack it raises StackUnderflow. -/
def Obligations.ReturnPopsIntoPc : Prop :=
  ∀ s : State,
    (∀ (l : List Word) (a : Word), s.stack = l ++ [a] → exec .ret s = .next { s with pc := a, stack := l }) ∧
    (s.stack = [] → exec .ret s = .fault .stackUnderflow)

/-- RET completes whenever the stack holds an entry, and CALL whenever it holds fewer than 16: the spec's conditions for not
raising StackUnderflow (R71) and StackOverflow (R73), on the stack alone. -/
def Obligations.ReturnAndCallComplete : Prop :=
  ∀ (s : State) (nnn : Imm12),
    (0 < s.stack.length → ∃ t : State, exec .ret s = .next t ∧ s.stack = t.stack ++ [t.pc] ∧
      t = { s with pc := t.pc, stack := t.stack }) ∧
    (s.stack.length < 16 → ∃ t : State, exec (.call nnn) s = .next t ∧ t.stack = s.stack ++ [s.pc + 2] ∧
      t.pc.toNat = nnn.toNat ∧ t = { s with pc := t.pc, stack := t.stack })

/-- R72: JP writes NNN, zero-extended, to pc and nothing else. -/
def Obligations.JumpLoadsPc : Prop :=
  ∀ (s : State) (nnn : Imm12), ∃ t, exec (.jp nnn) s = .next t ∧ t.pc.toNat = nnn.toNat ∧ t = { s with pc := t.pc }

/-- R73: CALL pushes pc + 2 and jumps; with 16 entries it raises StackOverflow. (More than 16 entries no run reaches; the
model faults there too.) -/
def Obligations.CallPushesTheNextAddress : Prop :=
  ∀ (s : State) (nnn : Imm12),
    (s.stack.length < 16 → ∃ t, exec (.call nnn) s = .next t ∧ t.pc.toNat = nnn.toNat ∧
      t = { s with pc := t.pc, stack := s.stack ++ [s.pc + 2] }) ∧
    (s.stack.length = 16 → exec (.call nnn) s = .fault .stackOverflow)

/-- R74 to R77: the four register skips add 4 to pc when their condition holds and 2 otherwise, and write nothing else. -/
def Obligations.RegisterSkipsTestTheirCondition : Prop :=
  ∀ (s : State) (x y : RegIdx) (kk : Byte),
    exec (.seImm x kk) s = .next { s with pc := s.pc + if s.reg x = kk then 4 else 2 } ∧
    exec (.sneImm x kk) s = .next { s with pc := s.pc + if s.reg x = kk then 2 else 4 } ∧
    exec (.seReg x y) s = .next { s with pc := s.pc + if s.reg x = s.reg y then 4 else 2 } ∧
    exec (.sneReg x y) s = .next { s with pc := s.pc + if s.reg x = s.reg y then 2 else 4 }

/-- R78: JP V0 writes V0 + NNN to pc, not reduced modulo 4096, and nothing else. -/
def Obligations.OffsetJumpAddsV0 : Prop :=
  ∀ (s : State) (nnn : Imm12), ∃ t, exec (.jpV0 nnn) s = .next t ∧
    t.pc.toNat = (s.reg 0).toNat + nnn.toNat ∧ t = { s with pc := t.pc }

/-- R70 (f): a call and then a return come back to the address after the call, with the stack as before and nothing else
changed. -/
def Obligations.CallThenReturnComesBack : Prop :=
  ∀ (s : State) (nnn : Imm12), s.stack.length < 16 →
    ∃ t, exec (.call nnn) s = .next t ∧ t.stack.length = s.stack.length + 1 ∧
      exec .ret t = .next { s with pc := s.pc + 2 }

/-- R72: a jump to its own address leaves the machine exactly as it was, however many cycles run. -/
def Obligations.ASelfJumpRunsForever : Prop :=
  ∀ (n : Nat) (s : State) (w : Word), s.host.agenda = [] → s.host.phase = .started → s.run = .running →
    s.fetchWord = some w → w.toNat = 0x1000 + s.pc.toNat → Sys2Proof.core.run n s = .next s

/-! ## Register load, arithmetic, logic, shift -/

/-- R83, R84, R85: load immediate, add immediate modulo 256 and copy write V[X] only, VF only when X = 15, and advance pc. -/
def Obligations.LoadsAndAddImmediateWriteOnlyVx : Prop :=
  ∀ (s : State) (x y : RegIdx) (kk : Byte),
    (∃ t, exec (.ldImm x kk) s = .next t ∧ t.reg x = kk ∧ (∀ r, r ≠ x → t.reg r = s.reg r) ∧
      t = { s with V := t.V, pc := s.pc + 2 }) ∧
    (∃ t, exec (.addImm x kk) s = .next t ∧ (t.reg x).toNat = ((s.reg x).toNat + kk.toNat) % 256 ∧
      (∀ r, r ≠ x → t.reg r = s.reg r) ∧ t = { s with V := t.V, pc := s.pc + 2 }) ∧
    (∃ t, exec (.ldReg x y) s = .next t ∧ t.reg x = s.reg y ∧ (∀ r, r ≠ x → t.reg r = s.reg r) ∧
      t = { s with V := t.V, pc := s.pc + 2 })

/-- R86, R87, R88: OR, AND and XOR act on each bit, write V[X] only and never clear VF. -/
def Obligations.LogicActsOnEachBit : Prop :=
  ∀ (s : State) (x y : RegIdx),
    (∃ t, exec (.orReg x y) s = .next t ∧
      (∀ k, k < 8 → (t.reg x).getLsbD k = ((s.reg x).getLsbD k || (s.reg y).getLsbD k)) ∧
      (∀ r, r ≠ x → t.reg r = s.reg r) ∧ t = { s with V := t.V, pc := s.pc + 2 }) ∧
    (∃ t, exec (.andReg x y) s = .next t ∧
      (∀ k, k < 8 → (t.reg x).getLsbD k = ((s.reg x).getLsbD k && (s.reg y).getLsbD k)) ∧
      (∀ r, r ≠ x → t.reg r = s.reg r) ∧ t = { s with V := t.V, pc := s.pc + 2 }) ∧
    (∃ t, exec (.xorReg x y) s = .next t ∧
      (∀ k, k < 8 → (t.reg x).getLsbD k = ((s.reg x).getLsbD k ^^ (s.reg y).getLsbD k)) ∧
      (∀ r, r ≠ x → t.reg r = s.reg r) ∧ t = { s with V := t.V, pc := s.pc + 2 })

/-- ADD Vx, Vy: the sum modulo 256 and the carry, from the operands before the instruction. When X = 15 the flag stands: the
spec's own decision D12 (assumption log 12). -/
def Obligations.AddGivesSumAndCarry : Prop :=
  ∀ (s : State) (x y : RegIdx), ∃ t, exec (.addReg x y) s = .next t ∧
    (x ≠ 15 → (t.reg x).toNat = ((s.reg x).toNat + (s.reg y).toNat) % 256) ∧
    (t.reg 15).toNat = (if (s.reg x).toNat + (s.reg y).toNat > 255 then 1 else 0) ∧
    (∀ r, r ≠ x → r ≠ 15 → t.reg r = s.reg r) ∧ t = { s with V := t.V, pc := s.pc + 2 }

/-- SUB and SUBN: the difference modulo 256 and no borrow. When X = 15 the flag stands (D12, assumption log 12). -/
def Obligations.SubtractGivesDifferenceAndNoBorrow : Prop :=
  ∀ (s : State) (x y : RegIdx),
    (∃ t, exec (.subReg x y) s = .next t ∧
      (x ≠ 15 → (t.reg x).toNat =
        if (s.reg x).toNat ≥ (s.reg y).toNat then (s.reg x).toNat - (s.reg y).toNat
        else (s.reg x).toNat + 256 - (s.reg y).toNat) ∧
      (t.reg 15).toNat = (if (s.reg x).toNat ≥ (s.reg y).toNat then 1 else 0) ∧
      (∀ r, r ≠ x → r ≠ 15 → t.reg r = s.reg r) ∧ t = { s with V := t.V, pc := s.pc + 2 }) ∧
    (∃ t, exec (.subnReg x y) s = .next t ∧
      (x ≠ 15 → (t.reg x).toNat =
        if (s.reg y).toNat ≥ (s.reg x).toNat then (s.reg y).toNat - (s.reg x).toNat
        else (s.reg y).toNat + 256 - (s.reg x).toNat) ∧
      (t.reg 15).toNat = (if (s.reg y).toNat ≥ (s.reg x).toNat then 1 else 0) ∧
      (∀ r, r ≠ x → r ≠ 15 → t.reg r = s.reg r) ∧ t = { s with V := t.V, pc := s.pc + 2 })

/-- SHR and SHL: V[X] shifted by one and the bit shifted out, whatever Y is. When X = 15 the flag stands (D12, log 12). -/
def Obligations.ShiftsGiveTheBitShiftedOut : Prop :=
  ∀ (s : State) (x y : RegIdx),
    (∃ t, exec (.shr x y) s = .next t ∧ (x ≠ 15 → (t.reg x).toNat = (s.reg x).toNat / 2) ∧
      (t.reg 15).toNat = (s.reg x).toNat % 2 ∧
      (∀ r, r ≠ x → r ≠ 15 → t.reg r = s.reg r) ∧ t = { s with V := t.V, pc := s.pc + 2 }) ∧
    (∃ t, exec (.shl x y) s = .next t ∧ (x ≠ 15 → (t.reg x).toNat = (s.reg x).toNat * 2 % 256) ∧
      (t.reg 15).toNat = (s.reg x).toNat / 128 ∧
      (∀ r, r ≠ x → r ≠ 15 → t.reg r = s.reg r) ∧ t = { s with V := t.V, pc := s.pc + 2 })

/-! ## Index register and memory -/

/-- R102, R103: LD I writes NNN; ADD I adds V[X] modulo 65536, with no flag; nothing but I and pc changes. -/
def Obligations.IndexLoadAndAdd : Prop :=
  ∀ (s : State) (nnn : Imm12) (x : RegIdx),
    (∃ t, exec (.ldI nnn) s = .next t ∧ t.I.toNat = nnn.toNat ∧ t = { s with I := t.I, pc := s.pc + 2 }) ∧
    (∃ t, exec (.addI x) s = .next t ∧ t.I.toNat = (s.I.toNat + (s.reg x).toNat) % 65536 ∧
      t = { s with I := t.I, pc := s.pc + 2 })

/-- LD F: I receives 5 times the low nibble of V[X]: glyph layout and low nibble are the spec's own decisions D4 and D5
(assumption logs 5, 10). Memory is not read. -/
def Obligations.FontAddressIsFiveTimesTheDigit : Prop :=
  ∀ (s : State) (x : RegIdx), ∃ t, exec (.ldF x) s = .next t ∧ t.I.toNat = 5 * ((s.reg x).toNat % 16) ∧
    t = { s with I := t.I, pc := s.pc + 2 }

/-- R105: the three decimal digits of V[X] go to I, I + 1, I + 2, and every other byte of memory stays; when I + 2 is outside
memory the instruction faults. -/
def Obligations.DecimalDigitsAreStored : Prop :=
  ∀ (s : State) (x : RegIdx),
    (effectiveAddress s.I 2 ≤ 0xFFF → ∃ t, exec (.ldB x) s = .next t ∧
      (t.mem.read (effectiveAddress s.I 0)).toNat = (s.reg x).toNat / 100 ∧
      (t.mem.read (effectiveAddress s.I 1)).toNat = (s.reg x).toNat / 10 % 10 ∧
      (t.mem.read (effectiveAddress s.I 2)).toNat = (s.reg x).toNat % 10 ∧
      (∀ a, (∀ k, k ≤ 2 → a ≠ effectiveAddress s.I k) → t.mem.read a = s.mem.read a) ∧
      t = { s with mem := t.mem, pc := s.pc + 2 }) ∧
    (effectiveAddress s.I 2 > 0xFFF → exec (.ldB x) s = .fault .memoryAddressOutOfRange)

/-- R106: V[0] to V[X] go to I, ..., I + X, and every other byte of memory stays; when I + X is outside memory the
instruction faults. -/
def Obligations.RegistersAreStored : Prop :=
  ∀ (s : State) (x : RegIdx),
    (effectiveAddress s.I x.val ≤ 0xFFF → ∃ t, exec (.storeRegs x) s = .next t ∧
      (∀ k : RegIdx, k ≤ x → t.mem.read (effectiveAddress s.I k.val) = s.reg k) ∧
      (∀ a, (∀ k : RegIdx, k ≤ x → a ≠ effectiveAddress s.I k.val) → t.mem.read a = s.mem.read a) ∧
      t = { s with mem := t.mem, pc := s.pc + 2 }) ∧
    (effectiveAddress s.I x.val > 0xFFF → exec (.storeRegs x) s = .fault .memoryAddressOutOfRange)

/-- R107: V[0] to V[X] come from I, ..., I + X, and the registers above V[X] stay; when I + X is outside memory the
instruction faults. -/
def Obligations.RegistersAreLoaded : Prop :=
  ∀ (s : State) (x : RegIdx),
    (effectiveAddress s.I x.val ≤ 0xFFF → ∃ t, exec (.loadRegs x) s = .next t ∧
      (∀ k : RegIdx, k ≤ x → t.reg k = s.mem.read (effectiveAddress s.I k.val)) ∧
      (∀ k : RegIdx, x < k → t.reg k = s.reg k) ∧
      t = { s with V := t.V, pc := s.pc + 2 }) ∧
    (effectiveAddress s.I x.val > 0xFFF → exec (.loadRegs x) s = .fault .memoryAddressOutOfRange)

/-- What FX55 stored, FX65 loads back: whatever the registers hold in between, V[0] to V[X] are as they were stored. -/
def Obligations.StoredRegistersLoadBack : Prop :=
  ∀ (s t : State) (x : RegIdx) (v : Vector Byte 16), exec (.storeRegs x) s = .next t →
    ∃ u, exec (.loadRegs x) { t with V := v } = .next u ∧
      (∀ k : RegIdx, k ≤ x → u.reg k = s.reg k) ∧ u.I = s.I ∧ u.mem = t.mem

/-- A store is seen by the very next fetch: when FX55 writes the two bytes after itself, they are the next word. -/
def Obligations.AStoreIsSeenByTheNextFetch : Prop :=
  ∀ (s t : State) (x : RegIdx), exec (.storeRegs x) s = .next t → s.I = s.pc + 2 → 1 ≤ x.val → s.pc.toNat ≤ 0xFFC →
    t.fetchWord = some (wordOfBytes (s.reg 0) (s.reg 1))

/-- Two memories in canonical form that read alike at every address are the same data. -/
def Obligations.CanonicalMemoriesThatReadAlikeAreEqual : Prop :=
  ∀ m m' : Memory, m.wf = true → m'.wf = true → (∀ a, a ≤ 0xFFF → m.read a = m'.read a) → m = m'

/-! ## Random number and display -/

/-- RND: V[X] receives a byte AND KK, the byte being the next one the host supplies or, when it supplies none, a free value
(decision D16, assumption log 7); each execution uses up one byte. -/
def Obligations.RandomByteIsMasked : Prop :=
  ∀ (s : State) (x : RegIdx) (kk : Byte), ∃ (t : State) (b : Byte), exec (.rnd x kk) s = .next t ∧
    (∀ k, k < 8 → (t.reg x).getLsbD k = (b.getLsbD k && kk.getLsbD k)) ∧
    (∀ r, r ≠ x → t.reg r = s.reg r) ∧
    ((∃ bs, s.host.rnds = b :: bs ∧ t = { s with V := t.V, pc := s.pc + 2, host := { s.host with rnds := bs } }) ∨
     (s.host.rnds = [] ∧ b = Config.randomByte s.host.draws ∧
       t = { s with V := t.V, pc := s.pc + 2, host := { s.host with draws := s.host.draws + 1 } }))

/-- R111: CLS clears every pixel, writes no register and no flag, and advances pc. -/
def Obligations.ClearTurnsEveryPixelOff : Prop :=
  ∀ s : State, ∃ t, exec .cls s = .next t ∧ (∀ y x, Display.pixel t.disp y x = false) ∧
    t = { s with disp := t.disp, pc := s.pc + 2 }

/-- DRW: each pixel is flipped exactly when the sprite has a 1 bit on it, VF says whether a set pixel was erased, and the
range is checked first (never for N = 0). VWRAP is the machine's open parameter; bit order and the check of discarded rows are
the spec's own decisions D14, D15, D29 (assumption logs 8, 15). -/
def Obligations.DrawFlipsThePixelsOfTheSprite : Prop :=
  ∀ (s : State) (x y : RegIdx) (n : Fin 16),
    (n.val = 0 ∨ s.I.toNat + n.val - 1 ≤ 0xFFF → ∃ t, exec (.drw x y n) s = .next t ∧
      (∀ row col, Display.pixel t.disp row col = true ↔
        ¬ (Display.pixel s.disp row col = true ↔ spriteCovers Config.vwrap s x y n row col)) ∧
      ((∃ row col, Display.pixel s.disp row col = true ∧ spriteCovers Config.vwrap s x y n row col) → t.reg 15 = 1) ∧
      ((∀ row col, spriteCovers Config.vwrap s x y n row col → Display.pixel s.disp row col = false) → t.reg 15 = 0) ∧
      (∀ r, r ≠ 15 → t.reg r = s.reg r) ∧
      t = { s with V := t.V, disp := t.disp, pc := s.pc + 2 }) ∧
    (n.val > 0 → s.I.toNat + n.val - 1 > 0xFFF → exec (.drw x y n) s = .fault .memoryAddressOutOfRange)

/-- Drawing the same sprite twice at the same position restores the display; against an empty display VF is first 0 and then
1, provided the sprite draws a 1 bit, else 0 again. The same position: the first draw may have changed V[X] or V[Y] when one of
them is VF. -/
def Obligations.DrawingTwiceRestoresTheDisplay : Prop :=
  ∀ (s t u : State) (x y : RegIdx) (n : Fin 16), exec (.drw x y n) s = .next t → t.reg x = s.reg x → t.reg y = s.reg y →
    exec (.drw x y n) t = .next u →
    u.disp = s.disp ∧
    ((∃ row col, spriteCovers Config.vwrap s x y n row col) → (∀ row col, Display.pixel s.disp row col = false) →
      t.reg 15 = 0 ∧ u.reg 15 = 1) ∧
    ((∀ row col, ¬ spriteCovers Config.vwrap s x y n row col) → t.reg 15 = 0 ∧ u.reg 15 = 0)

/-! ## Keypad and timers -/

/-- SKP and SKNP: exactly one of the two skips; a value of V[X] above 0x0F is no key, so it counts as not pressed (decision D20,
assumption log 11). -/
def Obligations.KeySkipsTestTheLatch : Prop :=
  ∀ (s : State) (x : RegIdx),
    ((∃ k : Key, (s.reg x).toNat = k.val ∧ s.keys.getLsbD k.val = true) →
      exec (.skp x) s = .next { s with pc := s.pc + 4 } ∧ exec (.sknp x) s = .next { s with pc := s.pc + 2 }) ∧
    ((∀ k : Key, (s.reg x).toNat = k.val → s.keys.getLsbD k.val = false) →
      exec (.skp x) s = .next { s with pc := s.pc + 2 } ∧ exec (.sknp x) s = .next { s with pc := s.pc + 4 })

/-- R122, R125, R126: FX07 reads DT into V[X]; FX15 and FX18 write DT and ST from V[X]; nothing else changes but pc. So FX18
gives no beep: the trigger belongs to the tick by the spec's own decision D21 (assumption log 25). -/
def Obligations.TimerInstructionsMoveTheCount : Prop :=
  ∀ (s : State) (x : RegIdx),
    (∃ t, exec (.ldVxDT x) s = .next t ∧ t.reg x = s.DT ∧ (∀ r, r ≠ x → t.reg r = s.reg r) ∧
      t = { s with V := t.V, pc := s.pc + 2 }) ∧
    exec (.ldDTVx x) s = .next { s with DT := s.reg x, pc := s.pc + 2 } ∧
    exec (.ldSTVx x) s = .next { s with ST := s.reg x, pc := s.pc + 2 }

/-- FX0A, first half: the wait begins, whatever keys are pressed, and nothing else changes, not even pc (decision D17,
assumption log 16). -/
def Obligations.KeyWaitBegins : Prop :=
  ∀ (s : State) (x : RegIdx), exec (.ldVxK x) s = .next { s with run := .awaitingKey x }

/-- FX0A, second half: while no key is pressed a cycle changes nothing; otherwise V[t] receives some pressed key, pc moves by 2 and
the machine runs again, whatever bytes lie at pc (decisions D18, D19, assumption logs 9, 16). Around it the step only marks that
the history has begun. -/
def Obligations.KeyWaitEndsWithAPressedKey : Prop :=
  ∀ (s : State) (t : RegIdx), s.host.agenda = [] → s.run = .awaitingKey t →
    (s.keys = 0 → step s = .next { s with host := { s.host with phase := .started } }) ∧
    (s.keys ≠ 0 → ∃ (u : State) (k : Key), step s = .next u ∧ s.keys.getLsbD k.val = true ∧ (u.reg t).toNat = k.val ∧
      (∀ r, r ≠ t → u.reg r = s.reg r) ∧
      u = { s with V := u.V, pc := s.pc + 2, run := .running, host := { s.host with phase := .started } })

/-- The wait has no timeout: with no key pressed and no other operation, any number of cycles leaves the machine as it was. -/
def Obligations.TheKeyWaitHasNoTimeout : Prop :=
  ∀ (n : Nat) (s : State) (t : RegIdx), s.host.agenda = [] → s.host.phase = .started → s.run = .awaitingKey t →
    s.keys = 0 → Sys2Proof.core.run n s = .next s

/-- R154: the wait is entered only by executing FX0A and left only by a cycle that finds a key pressed, and a cycle that finds
one does end it: one that stays in the wait has found none. During the wait nothing changes but what ticks and set_keys change,
and a cycle that stays changes nothing at all but the mark that the history has begun, which is the model's own (assumption
log 1). In the wait no fault arises and every cycle goes on. (The invariant rules out a wait directly after a fault, which no
run reaches.) -/
def Obligations.TheWaitIsEnteredAndLeftAsDescribed : Prop :=
  (∀ s t : State, s.Inv → step s = .next t →
    (∀ r, s.run = .running → t.run = .awaitingKey r → s.Executes (.ldVxK r)) ∧
    (∀ r, s.run = .awaitingKey r → t.run = .running →
      s.keys ≠ 0 ∧ (s.host.agenda = [] ∨ ∃ ops, s.host.agenda = .runCycle :: ops)) ∧
    (∀ r r', s.run = .awaitingKey r → t.run = .awaitingKey r' → r' = r ∧
      t = { s with DT := t.DT, ST := t.ST, keys := t.keys, host := t.host } ∧
      ((s.host.agenda = [] ∨ ∃ ops, s.host.agenda = .runCycle :: ops) →
        s.keys = 0 ∧ t = { s with host := { s.host with agenda := s.host.agenda.tail, phase := .started } }))) ∧
  (∀ (s : State) (r : RegIdx), s.run = .awaitingKey r → (∀ f, step s ≠ .fault f) ∧
    ((s.host.agenda = [] ∨ ∃ ops, s.host.agenda = .runCycle :: ops) → ∃ t, step s = .next t))

/-! ## Host operations -/

/-- R150: a tick takes 1 from each timer, floored at 0, returns whether ST was 1, and touches nothing else; it works in every
run state. -/
def Obligations.ATickDecrementsBothTimers : Prop :=
  ∀ (s : State) (ops : List HostOp), s.host.agenda = .tickTimers :: ops →
    ∃ t, step s = .next t ∧ t.DT.toNat = s.DT.toNat - 1 ∧ t.ST.toNat = s.ST.toNat - 1 ∧
      t.host.results = s.host.results ++ [.beep (decide (s.ST.toNat = 1))] ∧
      t = { s with DT := t.DT, ST := t.ST, host := { s.host with
        agenda := ops, results := t.host.results, phase := s.host.phase.settle } }

/-- A count of n in the sound timer gives exactly one beep, with the n-th tick, and none before (the spec's own decision D21,
assumption log 25); the delay timer goes down by n, floored at 0. -/
def Obligations.ASoundTimerBeepsOnceWithItsLastTick : Prop :=
  ∀ (n : Nat) (s : State) (ops : List HostOp), s.ST.toNat = n + 1 →
    s.host.agenda = List.replicate (n + 1) .tickTimers ++ ops →
    ∃ t, Sys2Proof.core.run (n + 1) s = .next t ∧
      t.host.results = s.host.results ++ List.replicate n (.beep false) ++ [.beep true] ∧
      t.DT.toNat = s.DT.toNat - (n + 1) ∧
      t = { s with ST := 0x00, DT := t.DT, host := { s.host with
        agenda := ops, results := t.host.results, phase := s.host.phase.settle } }

/-- R134: set_keys replaces the whole latch and touches nothing else; it completes no wait. -/
def Obligations.SetKeysReplacesTheLatch : Prop :=
  ∀ (s : State) (pressed : Word) (ops : List HostOp), s.host.agenda = .setKeys pressed :: ops →
    step s = .next { s with keys := pressed, host := { s.host with agenda := ops, phase := s.host.phase.settle } }

/-- R136: the snapshot is the 64 by 32 grid, row-major from the top left, and the machine is unchanged. -/
def Obligations.TheSnapshotIsTheDisplay : Prop :=
  ∀ (s : State) (ops : List HostOp), s.host.agenda = .displaySnapshot :: ops →
    ∃ S : Vector Bool 2048,
      (∀ (y : Fin 32) (x : Fin 64) (k : Fin 2048), k.val = y.val * 64 + x.val → S[k] = Display.pixel s.disp y x) ∧
      step s = .next { s with host := { s.host with
        agenda := ops, results := s.host.results ++ [.pixels S], phase := s.host.phase.settle } }

/-- load_program: the bytes go to 0x200 and up, nothing else changes; 3585 bytes or more end the history with RomTooLarge; a
second, late or waiting load is refused (decision D23, assumption log 18). -/
def Obligations.LoadProgramCopiesTheBytes : Prop :=
  ∀ (s : State) (bytes : List Byte) (ops : List HostOp), s.host.agenda = .loadProgram bytes :: ops →
    (s.host.phase = .fresh → s.run = .running → bytes.length ≤ 3584 → ∃ t, step s = .next t ∧
      (∀ (k : Nat) (h : k < bytes.length), t.mem.read (0x200 + k) = bytes[k]) ∧
      (∀ a, a < 0x200 ∨ 0x200 + bytes.length ≤ a → t.mem.read a = s.mem.read a) ∧
      t = { s with mem := t.mem, host := { s.host with agenda := ops, phase := .started } }) ∧
    (s.host.phase = .fresh → s.run = .running → bytes.length > 3584 → step s = .fault .romTooLarge) ∧
    (s.host.phase ≠ .fresh ∨ s.run ≠ .running → step s = .refused .loadOutOfOrder)

/-- skip_instruction elsewhere than directly after a faulting cycle is refused (assumption log 19). -/
def Obligations.SkipIsOnlyForAfterAFault : Prop :=
  ∀ (s : State) (ops : List HostOp), s.host.agenda = .skipInstruction :: ops →
    (s.host.phase = .faulted → ∃ t, step s = .next t ∧ t.pc.toNat = (s.pc.toNat + 2) % 65536 ∧
      t = { s with pc := t.pc, host := { s.host with agenda := ops, phase := .started } }) ∧
    (s.host.phase ≠ .faulted → step s = .refused .skipWithoutFault)

/-! ## Whole-machine rules -/

/-- Which instructions fault, and when: the table of faults, exactly. The table has CALL fault with 16 entries; that it faults
with more, too, in states no run reaches, is the model's choice (assumption log 17). -/
def Obligations.InstructionsFaultExactlyAsTabled : Prop :=
  ∀ (i : Instr) (s : State) (f : Fault), exec i s = .fault f ↔
    (i = .ret ∧ s.stack = [] ∧ f = .stackUnderflow) ∨
    (∃ nnn, i = .call nnn ∧ 16 ≤ s.stack.length ∧ f = .stackOverflow) ∨
    (f = .memoryAddressOutOfRange ∧
      ((∃ x, i = .ldB x ∧ s.I.toNat + 2 > 0xFFF) ∨
       (∃ x : RegIdx, (i = .storeRegs x ∨ i = .loadRegs x) ∧ s.I.toNat + x.val > 0xFFF) ∨
       (∃ (x y : RegIdx) (n : Fin 16), i = .drw x y n ∧ n.val > 0 ∧ s.I.toNat + n.val - 1 > 0xFFF)))

/-- No instruction is ever refused: a cycle goes on safely or ends in one of the four per-cycle faults. -/
def Obligations.ACycleGoesOnOrFaults : Prop :=
  (∀ (i : Instr) (s : State) (r : Refusal), exec i s ≠ .refused r) ∧
  (∀ s : State, s.host.agenda = [] → SafeRun 1 s ∨
    step s = .fault .memoryAddressOutOfRange ∨ (∃ w, step s = .fault (.unsupportedOpcode w)) ∨
    step s = .fault .stackOverflow ∨ step s = .fault .stackUnderflow)

/-- The new pc of every instruction that goes on, as the table of spec/10_state.md section 4 gives it. -/
def Obligations.EveryInstructionMovesPcAsTabled : Prop :=
  ∀ (i : Instr) (s t : State), exec i s = .next t → t.pc = tabledPc i s

/-- Which instruction may change which piece of state. KEYS and the host's agenda, results and phase are changed by none. -/
def Obligations.EachFieldChangesOnlyByItsInstructions : Prop :=
  ∀ (i : Instr) (s t : State), exec i s = .next t →
    t.keys = s.keys ∧ t.host.agenda = s.host.agenda ∧ t.host.results = s.host.results ∧ t.host.phase = s.host.phase ∧
    (t.host ≠ s.host → ∃ x kk, i = .rnd x kk) ∧
    (t.DT ≠ s.DT → ∃ x, i = .ldDTVx x) ∧
    (t.ST ≠ s.ST → ∃ x, i = .ldSTVx x) ∧
    (t.I ≠ s.I → (∃ nnn, i = .ldI nnn) ∨ (∃ x, i = .addI x) ∨ ∃ x, i = .ldF x) ∧
    (t.stack ≠ s.stack → i = .ret ∨ ∃ nnn, i = .call nnn) ∧
    (t.disp ≠ s.disp → i = .cls ∨ ∃ x y n, i = .drw x y n) ∧
    (t.run ≠ s.run → ∃ x, i = .ldVxK x ∧ t.run = .awaitingKey x) ∧
    (∀ a, t.mem.read a ≠ s.mem.read a → s.I.toNat ≤ a ∧
      ((∃ x, i = .ldB x ∧ a ≤ s.I.toNat + 2) ∨ ∃ x : RegIdx, i = .storeRegs x ∧ a ≤ s.I.toNat + x.val))

/-- A register changes only when the instruction names it as a destination, VF also when the instruction writes the flag; and
a flag is written as 0x00 or 0x01. -/
def Obligations.RegistersChangeOnlyAsDestinationOrFlag : Prop :=
  ∀ (i : Instr) (s t : State), exec i s = .next t →
    (∀ r, t.reg r ≠ s.reg r → namesDestination i r = true ∨ (r = 15 ∧ writesFlag i = true)) ∧
    (writesFlag i = true → t.reg 15 = 0x00 ∨ t.reg 15 = 0x01)

/-- No instruction reads ST: with another count in the sound timer every instruction but FX18 does the same and leaves that
other count. -/
def Obligations.NoInstructionReadsTheSoundTimer : Prop :=
  ∀ (i : Instr) (s : State) (v : Byte), (∀ x, i ≠ .ldSTVx x) →
    (∀ t, exec i s = .next t → exec i { s with ST := v } = .next { t with ST := v }) ∧
    (∀ f, exec i s = .fault f → exec i { s with ST := v } = .fault f)

/-- KEYS changes only by set_keys, and a timer only by a tick or by executing FX15 or FX18: over every kind of step. -/
def Obligations.KeysAndTimersChangeOnlyAsDescribed : Prop :=
  ∀ s t : State, step s = .next t →
    (t.keys ≠ s.keys → ∃ ops, s.host.agenda = .setKeys t.keys :: ops) ∧
    (t.DT ≠ s.DT → (∃ ops, s.host.agenda = .tickTimers :: ops) ∨ ∃ x, s.Executes (.ldDTVx x)) ∧
    (t.ST ≠ s.ST → (∃ ops, s.host.agenda = .tickTimers :: ops) ∨ ∃ x, s.Executes (.ldSTVx x))

/-- Memory changes only by executing FX33 or FX55, or by load_program, and then only in their range; the display only by
executing 00E0 or DXYN: over every kind of step. -/
def Obligations.MemoryAndDisplayChangeOnlyAsDescribed : Prop :=
  ∀ s t : State, step s = .next t →
    (∀ a, t.mem.read a ≠ s.mem.read a →
      (∃ x, s.Executes (.ldB x) ∧ s.I.toNat ≤ a ∧ a ≤ s.I.toNat + 2) ∨
      (∃ x : RegIdx, s.Executes (.storeRegs x) ∧ s.I.toNat ≤ a ∧ a ≤ s.I.toNat + x.val) ∨
      (∃ bytes ops, s.host.agenda = .loadProgram bytes :: ops ∧ 0x200 ≤ a ∧ a < 0x200 + bytes.length)) ∧
    (t.disp ≠ s.disp → s.Executes .cls ∨ ∃ x y n, s.Executes (.drw x y n))

/-! ## Reset and invariants -/

/-- The state after reset with the default font, field by field. The spec's own decisions D2, D3, D4 (assumption logs 3, 4, 5); the host's side is the
model's (assumption log 28). -/
def Obligations.ResetValues : Prop :=
  (∀ r, State.reset.reg r = 0x00) ∧ State.reset.I = 0x0000 ∧ State.reset.pc = 0x0200 ∧ State.reset.stack = [] ∧
  State.reset.DT = 0x00 ∧ State.reset.ST = 0x00 ∧
  font.length = 80 ∧ (∀ (a : Nat) (h : a < font.length), State.reset.mem.read a = font[a]) ∧
  (∀ a, 0x050 ≤ a → a ≤ 0xFFF → State.reset.mem.read a = 0x00) ∧
  (∀ y x, Display.pixel State.reset.disp y x = false) ∧ State.reset.keys = 0 ∧ State.reset.run = .running ∧
  State.reset.host = { agenda := [], results := [], phase := .fresh, rnds := [], draws := 0 }

/-- FONT is a parameter (spec/00_scope.md R4): for every font table, memory after reset reads as that table below 0x050 and as
zero above it, all other state is as after reset with the default table, and the invariants hold; the default gives
`State.reset`. -/
def Obligations.ResetTakesAnyFont : Prop :=
  State.resetWith defaultFont = State.reset ∧
  ∀ glyphs : Config.Font,
    (∀ (a : Nat) (h : a < 80), (State.resetWith glyphs).mem.read a = glyphs[a]) ∧
    (∀ a, 0x050 ≤ a → a ≤ 0xFFF → (State.resetWith glyphs).mem.read a = 0x00) ∧
    State.resetWith glyphs = { State.reset with mem := (State.resetWith glyphs).mem } ∧
    (State.resetWith glyphs).Inv ∧ (State.resetWith glyphs).PcBound

/-- After reset the invariants hold. -/
def Obligations.TheInvariantsHoldAtReset : Prop := State.reset.Inv ∧ State.reset.PcBound

/-- Every step keeps the invariant: canonical memory, at most 16 stack entries, and, while a key is awaited, pc at the FX0A that
is waiting. -/
def Obligations.EveryStepKeepsTheInvariant : Prop :=
  ∀ s t : State, s.Inv → step s = .next t → t.Inv

/-- Every operation but skip_instruction keeps pc at most 0x10FE and the stack entries in 0x0002 to 0x1000. -/
def Obligations.EveryStepButSkipKeepsPcInBounds : Prop :=
  ∀ s t : State, s.PcBound → (∀ ops, s.host.agenda ≠ .skipInstruction :: ops) → step s = .next t → t.PcBound
end

