-- ==== Sys2Proof/Laws/Decode.lean ====
section
/-! SUPPORT. The fields of an encoded word, and a word from its fields (spec/30_encoding.md R51, R52). -/

namespace Sys2Proof

@[simp] theorem regOf_nibbleOf (x : Fin 16) : regOf (nibbleOf x) = x := by
  have h : ∀ x : Fin 16, regOf (nibbleOf x) = x := by decide
  exact h x

@[simp] theorem nibbleOf_regOf (n : Nibble) : nibbleOf (regOf n) = n := by
  have h : ∀ n : Nibble, nibbleOf (regOf n) = n := by decide
  exact h n

/-! ## Format A -/

@[simp] theorem opField_formatA (op : Nibble) (nnn : Imm12) : opField (formatA op nnn) = op := by
  apply BitVec.eq_of_getLsbD_eq
  intro i hi
  simp only [opField, formatA, BitVec.getLsbD_extractLsb', BitVec.getLsbD_append]
  interval_cases i <;> simp

@[simp] theorem nnnField_formatA (op : Nibble) (nnn : Imm12) : nnnField (formatA op nnn) = nnn := by
  apply BitVec.eq_of_getLsbD_eq
  intro i hi
  simp only [nnnField, formatA, BitVec.getLsbD_extractLsb', BitVec.getLsbD_append]
  interval_cases i <;> simp

theorem formatA_fields (w : Word) : formatA (opField w) (nnnField w) = w := by
  apply BitVec.eq_of_getLsbD_eq
  intro i hi
  simp only [opField, nnnField, formatA, BitVec.getLsbD_extractLsb', BitVec.getLsbD_append]
  interval_cases i <;> simp

/-! ## Formats I and X -/

@[simp] theorem opField_formatI (op : Nibble) (x : RegIdx) (kk : Byte) : opField (formatI op x kk) = op := by
  apply BitVec.eq_of_getLsbD_eq
  intro i hi
  simp only [opField, formatI, BitVec.getLsbD_extractLsb', BitVec.getLsbD_append]
  interval_cases i <;> simp

@[simp] theorem kkField_formatI (op : Nibble) (x : RegIdx) (kk : Byte) : kkField (formatI op x kk) = kk := by
  apply BitVec.eq_of_getLsbD_eq
  intro i hi
  simp only [kkField, formatI, BitVec.getLsbD_extractLsb', BitVec.getLsbD_append]
  interval_cases i <;> simp

@[simp] theorem xField_formatI (op : Nibble) (x : RegIdx) (kk : Byte) : xField (formatI op x kk) = x := by
  have h : (formatI op x kk).extractLsb' 8 4 = nibbleOf x := by
    apply BitVec.eq_of_getLsbD_eq
    intro i hi
    simp only [formatI, BitVec.getLsbD_extractLsb', BitVec.getLsbD_append]
    interval_cases i <;> simp
  rw [xField, h, regOf_nibbleOf]

theorem formatI_fields (w : Word) : formatI (opField w) (xField w) (kkField w) = w := by
  apply BitVec.eq_of_getLsbD_eq
  intro i hi
  simp only [opField, xField, kkField, formatI, nibbleOf_regOf, BitVec.getLsbD_extractLsb', BitVec.getLsbD_append]
  interval_cases i <;> simp

/-! ## Formats R and D -/

@[simp] theorem opField_formatR (op : Nibble) (x y : RegIdx) (n : Nibble) : opField (formatR op x y n) = op := by
  apply BitVec.eq_of_getLsbD_eq
  intro i hi
  simp only [opField, formatR, digits, BitVec.getLsbD_extractLsb', BitVec.getLsbD_append]
  interval_cases i <;> simp

@[simp] theorem nField_formatR (op : Nibble) (x y : RegIdx) (n : Nibble) : nField (formatR op x y n) = n := by
  apply BitVec.eq_of_getLsbD_eq
  intro i hi
  simp only [nField, formatR, digits, BitVec.getLsbD_extractLsb', BitVec.getLsbD_append]
  interval_cases i <;> simp

@[simp] theorem xField_formatR (op : Nibble) (x y : RegIdx) (n : Nibble) : xField (formatR op x y n) = x := by
  have h : (formatR op x y n).extractLsb' 8 4 = nibbleOf x := by
    apply BitVec.eq_of_getLsbD_eq
    intro i hi
    simp only [formatR, digits, BitVec.getLsbD_extractLsb', BitVec.getLsbD_append]
    interval_cases i <;> simp
  rw [xField, h, regOf_nibbleOf]

@[simp] theorem yField_formatR (op : Nibble) (x y : RegIdx) (n : Nibble) : yField (formatR op x y n) = y := by
  have h : (formatR op x y n).extractLsb' 4 4 = nibbleOf y := by
    apply BitVec.eq_of_getLsbD_eq
    intro i hi
    simp only [formatR, digits, BitVec.getLsbD_extractLsb', BitVec.getLsbD_append]
    interval_cases i <;> simp
  rw [yField, h, regOf_nibbleOf]

theorem formatR_fields (w : Word) : formatR (opField w) (xField w) (yField w) (nField w) = w := by
  apply BitVec.eq_of_getLsbD_eq
  intro i hi
  simp only [opField, xField, yField, nField, formatR, digits, nibbleOf_regOf, BitVec.getLsbD_extractLsb',
    BitVec.getLsbD_append]
  interval_cases i <;> simp

/-! ## Bytes and words -/

theorem wordOfBytes_toNat (hi lo : Byte) : (wordOfBytes hi lo).toNat = 256 * hi.toNat + lo.toNat := by
  have h := lo.isLt
  rw [wordOfBytes, BitVec.toNat_append, ← Nat.shiftLeft_add_eq_or_of_lt h, Nat.shiftLeft_eq]
  omega

@[simp] theorem wordOfBytes_hiByte_loByte (w : Word) : wordOfBytes (hiByte w) (loByte w) = w := by
  apply BitVec.eq_of_getLsbD_eq
  intro i hi
  simp only [wordOfBytes, hiByte, loByte, BitVec.getLsbD_extractLsb', BitVec.getLsbD_append]
  interval_cases i <;> simp

/-- The host's view of the decoder is the decoder on the table word. -/
theorem decodeTableWord_eq (nbits w : Nat) :
    decodeTableWord nbits w = (decode (tableWord nbits w)).toOption := by
  simp only [decodeTableWord, decodeBytes, wordOfBytes_hiByte_loByte]
  cases decode (tableWord nbits w) <;> rfl

end Sys2Proof
end

