-- ==== Sys2Proof/Laws/Display.lean ====
section
/-! SUPPORT. The display: one pixel after each operation. -/

namespace Sys2Proof.Machine

/-- Flipping one pixel changes that pixel and no other. -/
theorem Display.pixel_flip (d : Display) (y y' : Fin 32) (x x' : Fin 64) :
    Display.pixel (Display.flip d y x) y' x' = (Display.pixel d y' x' ^^ (y' == y && x' == x)) := by
  by_cases hy : y' = y
  · subst hy
    have hx : (BitVec.twoPow 64 (63 - x.val)).getMsbD x'.val = (x' == x) := by
      simp only [BitVec.getMsbD, BitVec.getLsbD_twoPow]
      have h1 := x.isLt
      have h2 := x'.isLt
      have h3 : x'.val < 64 := x'.isLt
      by_cases h : x' = x
      · subst h; simp; omega
      · have h4 : x'.val ≠ x.val := fun e => h (Fin.ext e)
        have h5 : 63 - x.val ≠ 63 - x'.val := by omega
        have h6 : (x' == x) = false := by simpa using h
        simp [h6, h5]
    simp [Display.pixel, Display.flip, hx]
  · have h1 : y.val ≠ y'.val := fun e => hy (Fin.ext e.symm)
    have h2 : (y' == y) = false := by simpa using hy
    simp [Display.pixel, Display.flip, h1, h2]

@[simp] theorem Display.pixel_clear (y : Fin 32) (x : Fin 64) : Display.pixel Display.clear y x = false := by
  simp [Display.pixel, Display.clear, BitVec.getMsbD]

/-- Two displays with the same pixels are the same display. -/
theorem Display.ext_pixel {d e : Display} (h : ∀ y x, Display.pixel d y x = Display.pixel e y x) : d = e := by
  apply Vector.ext
  intro i hi
  apply BitVec.eq_of_getMsbD_eq
  intro j hj
  exact h ⟨i, hi⟩ ⟨j, hj⟩

/-- Element k of the snapshot is the pixel in row k / 64 and column k mod 64 (spec/45_host_operations.md R136). -/
theorem Display.snapshot_getElem (d : Display) (k : Nat) (h : k < 2048) :
    d.snapshot[k] = Display.pixel d ⟨k / 64, by omega⟩ ⟨k % 64, by omega⟩ := by
  simp [Display.snapshot]

/-- What drawing one pixel of a sprite row does. -/
theorem drawPixel_pixel (b : Byte) (x0 : Nat) (y : Fin 32) (acc : Display × Bool) (c : Nat) (y' : Fin 32) (x' : Fin 64) :
    Display.pixel (drawPixel b x0 y acc c).1 y' x' =
      (Display.pixel acc.1 y' x' ^^ (b.getLsbD (7 - c) && (y' == y && x' == Fin.ofNat 64 (x0 + c)))) := by
  unfold drawPixel
  split
  · rename_i h; simp [Display.pixel_flip, h]
  · rename_i h; simp [h]

/-- `hit` is kept, and set when the pixel drawn on was set. -/
theorem drawPixel_hit (b : Byte) (x0 : Nat) (y : Fin 32) (acc : Display × Bool) (c : Nat) :
    (drawPixel b x0 y acc c).2 =
      (acc.2 || (b.getLsbD (7 - c) && Display.pixel acc.1 y (Fin.ofNat 64 (x0 + c)))) := by
  unfold drawPixel
  split
  · rename_i h; simp [h]
  · rename_i h; simp [h]

/-! ## A row and a whole sprite -/

/-- Whether one of the first `n` pixels of a sprite row is a 1 bit on column `x`. -/
def rowCovers (b : Byte) (x0 n : Nat) (x : Fin 64) : Bool :=
  (List.range n).any fun c => b.getLsbD (7 - c) && x == Fin.ofNat 64 (x0 + c)

theorem rowCovers_succ (b : Byte) (x0 n : Nat) (x : Fin 64) :
    rowCovers b x0 (n + 1) x = (rowCovers b x0 n x || (b.getLsbD (7 - n) && x == Fin.ofNat 64 (x0 + n))) := by
  simp [rowCovers, List.range_succ]

/-- The pixels of a sprite row lie on different columns. -/
theorem rowCovers_own {b : Byte} {x0 n : Nat} (hn : n < 64) : rowCovers b x0 n (Fin.ofNat 64 (x0 + n)) = false := by
  simp only [rowCovers, List.any_eq_false, List.mem_range]
  intro c hc h
  simp only [Bool.and_eq_true, beq_iff_eq, Fin.ext_iff, Fin.val_ofNat] at h
  omega

theorem foldl_drawPixel (b : Byte) (x0 n : Nat) (y : Fin 32) (acc : Display × Bool) (hn : n ≤ 8) :
    (∀ y' x', Display.pixel ((List.range n).foldl (drawPixel b x0 y) acc).1 y' x' =
      (Display.pixel acc.1 y' x' ^^ (y' == y && rowCovers b x0 n x'))) ∧
    (((List.range n).foldl (drawPixel b x0 y) acc).2 = true ↔
      acc.2 = true ∨ ∃ x', rowCovers b x0 n x' = true ∧ Display.pixel acc.1 y x' = true) := by
  induction n with
  | zero => simp [rowCovers]
  | succ n ih =>
    obtain ⟨ih1, ih2⟩ := ih (by omega)
    rw [List.range_succ, List.foldl_append, List.foldl_cons, List.foldl_nil]
    refine ⟨fun y' x' => ?_, ?_⟩
    · rw [drawPixel_pixel, ih1, rowCovers_succ]
      by_cases hx : x' = Fin.ofNat 64 (x0 + n)
      · subst hx; rw [rowCovers_own (by omega)]; simp [Bool.and_comm]
      · have h6 : (x' == Fin.ofNat 64 (x0 + n)) = false := by simpa using hx
        rw [h6]; simp only [Bool.and_false, Bool.or_false, Bool.xor_false]
    · rw [drawPixel_hit, Bool.or_eq_true, ih2, ih1, rowCovers_own (by omega), or_assoc]
      refine or_congr_right ?_
      simp only [rowCovers_succ, Bool.or_eq_true, Bool.and_eq_true, beq_iff_eq, or_and_right, exists_or, Bool.and_false,
        Bool.xor_false, and_assoc, exists_and_left, exists_eq_left]

/-- Drawing a sprite row flips exactly the pixels it covers, and `hit` tells whether one of them was set. -/
theorem drawRow_spec (b : Byte) (x0 : Nat) (y : Fin 32) (acc : Display × Bool) :
    (∀ y' x', Display.pixel (drawRow b x0 y acc).1 y' x' =
      (Display.pixel acc.1 y' x' ^^ (y' == y && rowCovers b x0 8 x'))) ∧
    ((drawRow b x0 y acc).2 = true ↔
      acc.2 = true ∨ ∃ x', rowCovers b x0 8 x' = true ∧ Display.pixel acc.1 y x' = true) :=
  foldl_drawPixel b x0 8 y acc (Nat.le_refl 8)

/-- Whether one of the first `n` rows of a sprite has a 1 bit on row `y` and column `x`. -/
def covers (vwrap : Bool) (m : Memory) (base x0 y0 n : Nat) (y : Fin 32) (x : Fin 64) : Bool :=
  (List.range n).any fun r => visibleRow vwrap (y0 + r) == some y && rowCovers (m.read (base + r)) x0 8 x

theorem covers_succ (vwrap : Bool) (m : Memory) (base x0 y0 n : Nat) (y : Fin 32) (x : Fin 64) :
    covers vwrap m base x0 y0 (n + 1) y x =
      (covers vwrap m base x0 y0 n y x ||
        (visibleRow vwrap (y0 + n) == some y && rowCovers (m.read (base + n)) x0 8 x)) := by
  simp [covers, List.range_succ]

theorem visibleRow_eq_some {vwrap : Bool} {k : Nat} {y : Fin 32} (hk : k < 64) :
    visibleRow vwrap k = some y ↔ y.val = k ∨ vwrap = true ∧ y.val + 32 = k := by
  have hy := y.isLt
  unfold visibleRow
  split
  · simp only [Option.some.injEq, Fin.ext_iff, Fin.val_ofNat]; omega
  · split
    · rename_i hv; simp only [Option.some.injEq, Fin.ext_iff, Fin.val_ofNat, hv, true_and]; omega
    · rename_i hv; simp only [reduceCtorEq, hv, false_and, or_false, false_iff]; omega

/-- The rows of a sprite lie on different rows of the display. -/
theorem covers_own {vwrap : Bool} {m : Memory} {base x0 y0 n : Nat} {y : Fin 32} {x : Fin 64} (hy : y0 < 32) (hn : n < 16)
    (hr : visibleRow vwrap (y0 + n) = some y) : covers vwrap m base x0 y0 n y x = false := by
  simp only [covers, List.any_eq_false, List.mem_range]
  intro r hlt h
  simp only [Bool.and_eq_true, beq_iff_eq] at h
  rw [visibleRow_eq_some (by omega)] at hr
  have h1 := h.1
  rw [visibleRow_eq_some (by omega)] at h1
  omega

/-- Drawing a sprite flips exactly the pixels it covers, and `hit` tells whether one of them was set. -/
theorem drawSprite_spec (vwrap : Bool) (m : Memory) (base x0 y0 n : Nat) (d : Display) (hy : y0 < 32) (hn : n ≤ 15) :
    (∀ y' x', Display.pixel (drawSprite vwrap m base x0 y0 n d).1 y' x' =
      (Display.pixel d y' x' ^^ covers vwrap m base x0 y0 n y' x')) ∧
    ((drawSprite vwrap m base x0 y0 n d).2 = true ↔
      ∃ y' x', covers vwrap m base x0 y0 n y' x' = true ∧ Display.pixel d y' x' = true) := by
  induction n with
  | zero => simp [drawSprite, covers]
  | succ n ih =>
    obtain ⟨ih1, ih2⟩ := ih (by omega)
    unfold drawSprite at ih1 ih2 ⊢
    rw [List.range_succ, List.foldl_append, List.foldl_cons, List.foldl_nil]
    cases hv : visibleRow vwrap (y0 + n) with
    | none =>
      have he : ∀ y x, covers vwrap m base x0 y0 (n + 1) y x = covers vwrap m base x0 y0 n y x := by
        intro y x; rw [covers_succ, hv]; simp
      simp only [drawSpriteRow, hv, he]
      exact ⟨ih1, ih2⟩
    | some yy =>
      simp only [drawSpriteRow, hv]
      obtain ⟨h1, h2⟩ := drawRow_spec (m.read (base + n)) x0 yy
        ((List.range n).foldl (drawSpriteRow vwrap m base x0 y0) (d, false))
      have own : ∀ x, covers vwrap m base x0 y0 n yy x = false := fun x => covers_own hy (by omega) hv
      refine ⟨fun y' x' => ?_, ?_⟩
      · rw [h1, ih1, covers_succ, hv]
        by_cases hyy : y' = yy
        · subst hyy; rw [own]; simp
        · have h6 : (y' == yy) = false := by simpa using hyy
          have h7 : (some yy == some y') = false := by simpa using fun e => hyy e.symm
          simp [h6, h7]
      · rw [h2, ih2]
        simp only [covers_succ, hv, Bool.or_eq_true, Bool.and_eq_true, or_and_right, exists_or]
        refine or_congr_right ?_
        constructor
        · rintro ⟨x', hx, hp⟩
          rw [ih1, own, Bool.xor_false] at hp
          exact ⟨yy, x', ⟨by simp, hx⟩, hp⟩
        · rintro ⟨y', x', ⟨he, hx⟩, hp⟩
          have : yy = y' := by simpa using he
          subst this
          exact ⟨x', hx, by rw [ih1, own, Bool.xor_false]; exact hp⟩

end Sys2Proof.Machine
end

