-- ==== Sys2Proof/Laws/Memory.lean ====
section
/-! SUPPORT. Memory: what a read gives after a write, and that every memory operation keeps the canonical form. -/

namespace Sys2Proof.Machine

/-! ## Reading after writing -/

theorem Memory.read_erase (m : Memory) (a b : Nat) :
    (m.erase a).read b = if b = a then background b else m.read b := by
  induction m with
  | nil => simp [Memory.erase, Memory.read]
  | cons c m ih =>
    obtain ⟨k, v⟩ := c
    by_cases hk : k = a
    · subst hk
      by_cases hb : b = k
      · simpa [Memory.erase, hb] using ih
      · simpa [Memory.erase, Memory.read, hb, Ne.symm hb] using ih
    · by_cases hkb : k = b
      · subst hkb; simp [Memory.erase, Memory.read, hk]
      · simp [Memory.erase, Memory.read, hk, ih, hkb]

/-- Inserting where there is no entry for the address. -/
theorem Memory.read_insert (m : Memory) (a b : Nat) (v : Byte) (h : ∀ c ∈ m, c.1 ≠ a) :
    (m.insert a v).read b = if b = a then v else m.read b := by
  induction m with
  | nil => by_cases hb : a = b <;> simp [Memory.insert, Memory.read, hb, eq_comm]
  | cons c m ih =>
    obtain ⟨k, w⟩ := c
    have hk : k ≠ a := h (k, w) (by simp)
    have ih := ih fun c hc => h c (by simp [hc])
    by_cases hlt : a < k
    · by_cases hb : a = b
      · subst hb; simp [Memory.insert, Memory.read, hlt]
      · simp [Memory.insert, Memory.read, hlt, hb, Ne.symm hb]
    · by_cases hkb : k = b
      · subst hkb; simp [Memory.insert, Memory.read, hlt, hk]
      · simp [Memory.insert, Memory.read, hlt, hkb, ih]

theorem Memory.mem_erase {m : Memory} {a : Nat} {c : Host.Cell} (h : c ∈ m.erase a) : c ∈ m ∧ c.1 ≠ a := by
  induction m with
  | nil => simp [Memory.erase] at h
  | cons d m ih =>
    by_cases hd : d.1 = a
    · simp only [Memory.erase, hd, if_true] at h
      exact ⟨by simp [(ih h).1], (ih h).2⟩
    · simp only [Memory.erase, hd, if_false, List.mem_cons] at h
      rcases h with rfl | h
      · exact ⟨by simp, hd⟩
      · exact ⟨by simp [(ih h).1], (ih h).2⟩

theorem Memory.mem_insert {m : Memory} {a : Nat} {v : Byte} {c : Host.Cell} (h : c ∈ m.insert a v) :
    c = (a, v) ∨ c ∈ m := by
  induction m with
  | nil => simpa [Memory.insert] using h
  | cons d m ih =>
    by_cases hd : a < d.1
    · simpa [Memory.insert, hd] using h
    · simp only [Memory.insert, hd, if_false, List.mem_cons] at h ⊢
      rcases h with rfl | h
      · exact .inr (.inl rfl)
      · rcases ih h with h | h
        · exact .inl h
        · exact .inr (.inr h)

/-- A read gives the byte last written (spec/20_memory.md R35). -/
@[simp] theorem Memory.read_write (m : Memory) (a b : Nat) (v : Byte) :
    (m.write a v).read b = if b = a then v else m.read b := by
  unfold Memory.write
  split
  · rename_i hv
    rw [Memory.read_erase]
    by_cases hb : b = a
    · simp [hb, hv]
    · simp [hb]
  · rw [Memory.read_insert _ _ _ _ fun c hc => (Memory.mem_erase hc).2, Memory.read_erase]
    by_cases hb : b = a <;> simp [hb]

/-- A transfer of bytes: each address of the range reads as its byte, every other address as before. -/
theorem Memory.read_writeBytes (m : Memory) (base a : Nat) (vs : List Byte) :
    (m.writeBytes base vs).read a =
      if h : base ≤ a ∧ a < base + vs.length then vs[a - base] else m.read a := by
  induction vs generalizing m base with
  | nil =>
    simp [Memory.writeBytes]
  | cons v vs ih =>
    rw [Memory.writeBytes, ih]
    by_cases h1 : base + 1 ≤ a ∧ a < base + 1 + vs.length
    · have h2 : base ≤ a ∧ a < base + (v :: vs).length := by simp; omega
      rw [dif_pos h1, dif_pos h2]
      have h3 : a - base = (a - (base + 1)) + 1 := by omega
      simp [h3]
    · rw [dif_neg h1, Memory.read_write]
      by_cases h2 : a = base
      · subst h2; simp
      · rw [if_neg h2, dif_neg]
        simp; omega

theorem Memory.read_writeBytes_outside {m : Memory} {base a : Nat} {vs : List Byte}
    (h : a < base ∨ base + vs.length ≤ a) : (m.writeBytes base vs).read a = m.read a := by
  rw [Memory.read_writeBytes, dif_neg (by omega)]

/-! ## The canonical form -/

theorem Memory.wf_cons {a : Nat} {v : Byte} {m : Memory} :
    Memory.wf ((a, v) :: m) = true ↔
      a ≤ Config.maxAddr ∧ v ≠ background a ∧ (∀ c ∈ m, a < c.1) ∧ m.wf = true := by
  simp [Memory.wf, and_assoc]

theorem Memory.erase_wf {m : Memory} (a : Nat) (h : m.wf = true) : (m.erase a).wf = true := by
  induction m with
  | nil => rfl
  | cons c m ih =>
    obtain ⟨k, v⟩ := c
    obtain ⟨hk, hv, hlt, hm⟩ := Memory.wf_cons.mp h
    by_cases hd : k = a
    · simpa [Memory.erase, hd] using ih hm
    · simp only [Memory.erase, hd, if_false]
      exact Memory.wf_cons.mpr ⟨hk, hv, fun c hc => hlt c (Memory.mem_erase hc).1, ih hm⟩

theorem Memory.insert_wf {m : Memory} {a : Nat} {v : Byte} (ha : a ≤ Config.maxAddr) (hv : v ≠ background a)
    (hne : ∀ c ∈ m, c.1 ≠ a) (h : m.wf = true) : (m.insert a v).wf = true := by
  induction m with
  | nil => exact Memory.wf_cons.mpr ⟨ha, hv, by simp, rfl⟩
  | cons c m ih =>
    obtain ⟨k, w⟩ := c
    obtain ⟨hk, hw, hlt, hm⟩ := Memory.wf_cons.mp h
    by_cases hd : a < k
    · simp only [Memory.insert, hd, if_true]
      refine Memory.wf_cons.mpr ⟨ha, hv, fun c hc => ?_, h⟩
      rcases List.mem_cons.mp hc with rfl | hc
      · exact hd
      · exact Nat.lt_trans hd (hlt c hc)
    · simp only [Memory.insert, hd, if_false]
      have hka : k ≠ a := hne (k, w) (by simp)
      refine Memory.wf_cons.mpr ⟨hk, hw, fun c hc => ?_, ih (fun c hc => hne c (by simp [hc])) hm⟩
      rcases Memory.mem_insert hc with rfl | hc
      · simp; omega
      · exact hlt c hc

/-- A write keeps the canonical form. -/
theorem Memory.write_wf {m : Memory} {a : Nat} (v : Byte) (ha : a ≤ Config.maxAddr) (h : m.wf = true) :
    (m.write a v).wf = true := by
  unfold Memory.write
  split
  · exact Memory.erase_wf a h
  · rename_i hv
    exact Memory.insert_wf ha hv (fun c hc => (Memory.mem_erase hc).2) (Memory.erase_wf a h)

/-- A transfer that stays in memory keeps the canonical form. -/
theorem Memory.writeBytes_wf {m : Memory} {base : Nat} {vs : List Byte}
    (hr : base + vs.length ≤ Config.maxAddr + 1) (h : m.wf = true) : (m.writeBytes base vs).wf = true := by
  induction vs generalizing m base with
  | nil => exact h
  | cons v vs ih =>
    simp only [List.length_cons] at hr
    exact ih (by omega) (Memory.write_wf v (by omega) h)

/-! ## Memory after reset -/

theorem font_length : font.length = Config.fontSize := rfl

theorem background_of_le {a : Nat} (h : Config.fontSize ≤ a) : background a = 0x00 := by
  rw [background, List.getElem?_eq_none (by rw [font_length]; exact h)]; rfl

/-- With any font table, memory after reset reads as that table below 0x050 and as zero above it. -/
theorem Memory.read_ofFont (glyphs : Config.Font) (a : Nat) :
    (Memory.ofFont glyphs).read a = if h : a < Config.fontSize then glyphs[a] else 0x00 := by
  have hb : Config.fontBase = 0 := rfl
  rw [Memory.ofFont, Memory.read_writeBytes]
  by_cases h : a < Config.fontSize
  · rw [dif_pos (by simpa [hb] using h), dif_pos h]; simp
  · rw [dif_neg (by simpa [hb] using h), dif_neg h]
    exact background_of_le (Nat.le_of_not_lt h)

/-- It is in canonical form, for any font table. -/
theorem Memory.ofFont_wf (glyphs : Config.Font) : (Memory.ofFont glyphs).wf = true :=
  Memory.writeBytes_wf (by simp [Config.fontSize, Config.maxAddr]) rfl

/-- With the default font it lists nothing. -/
theorem Memory.ofFont_default : Memory.ofFont defaultFont = [] := by decide

end Sys2Proof.Machine
end

