-- ==== Sys2Proof/Laws/State.lean ====
section
/-! SUPPORT. One lemma per field per update: what each field reads after each named update of the state. -/

namespace Sys2Proof.Machine

variable (s : State)

/-! ## `setI` -/

@[simp] theorem State.setI_V (v : Word) : (s.setI v).V = s.V := rfl
@[simp] theorem State.setI_I (v : Word) : (s.setI v).I = v := rfl
@[simp] theorem State.setI_pc (v : Word) : (s.setI v).pc = s.pc := rfl
@[simp] theorem State.setI_stack (v : Word) : (s.setI v).stack = s.stack := rfl
@[simp] theorem State.setI_DT (v : Word) : (s.setI v).DT = s.DT := rfl
@[simp] theorem State.setI_ST (v : Word) : (s.setI v).ST = s.ST := rfl
@[simp] theorem State.setI_mem (v : Word) : (s.setI v).mem = s.mem := rfl
@[simp] theorem State.setI_disp (v : Word) : (s.setI v).disp = s.disp := rfl
@[simp] theorem State.setI_keys (v : Word) : (s.setI v).keys = s.keys := rfl
@[simp] theorem State.setI_run (v : Word) : (s.setI v).run = s.run := rfl
@[simp] theorem State.setI_host (v : Word) : (s.setI v).host = s.host := rfl
@[simp] theorem State.setI_reg (v : Word) (x : RegIdx) : (s.setI v).reg x = s.reg x := rfl

/-! ## `setPc` -/

@[simp] theorem State.setPc_V (v : Word) : (s.setPc v).V = s.V := rfl
@[simp] theorem State.setPc_I (v : Word) : (s.setPc v).I = s.I := rfl
@[simp] theorem State.setPc_pc (v : Word) : (s.setPc v).pc = v := rfl
@[simp] theorem State.setPc_stack (v : Word) : (s.setPc v).stack = s.stack := rfl
@[simp] theorem State.setPc_DT (v : Word) : (s.setPc v).DT = s.DT := rfl
@[simp] theorem State.setPc_ST (v : Word) : (s.setPc v).ST = s.ST := rfl
@[simp] theorem State.setPc_mem (v : Word) : (s.setPc v).mem = s.mem := rfl
@[simp] theorem State.setPc_disp (v : Word) : (s.setPc v).disp = s.disp := rfl
@[simp] theorem State.setPc_keys (v : Word) : (s.setPc v).keys = s.keys := rfl
@[simp] theorem State.setPc_run (v : Word) : (s.setPc v).run = s.run := rfl
@[simp] theorem State.setPc_host (v : Word) : (s.setPc v).host = s.host := rfl
@[simp] theorem State.setPc_reg (v : Word) (x : RegIdx) : (s.setPc v).reg x = s.reg x := rfl

/-! ## `setStack` -/

@[simp] theorem State.setStack_V (v : List Word) : (s.setStack v).V = s.V := rfl
@[simp] theorem State.setStack_I (v : List Word) : (s.setStack v).I = s.I := rfl
@[simp] theorem State.setStack_pc (v : List Word) : (s.setStack v).pc = s.pc := rfl
@[simp] theorem State.setStack_stack (v : List Word) : (s.setStack v).stack = v := rfl
@[simp] theorem State.setStack_DT (v : List Word) : (s.setStack v).DT = s.DT := rfl
@[simp] theorem State.setStack_ST (v : List Word) : (s.setStack v).ST = s.ST := rfl
@[simp] theorem State.setStack_mem (v : List Word) : (s.setStack v).mem = s.mem := rfl
@[simp] theorem State.setStack_disp (v : List Word) : (s.setStack v).disp = s.disp := rfl
@[simp] theorem State.setStack_keys (v : List Word) : (s.setStack v).keys = s.keys := rfl
@[simp] theorem State.setStack_run (v : List Word) : (s.setStack v).run = s.run := rfl
@[simp] theorem State.setStack_host (v : List Word) : (s.setStack v).host = s.host := rfl
@[simp] theorem State.setStack_reg (v : List Word) (x : RegIdx) : (s.setStack v).reg x = s.reg x := rfl

/-! ## `setDT` -/

@[simp] theorem State.setDT_V (v : Byte) : (s.setDT v).V = s.V := rfl
@[simp] theorem State.setDT_I (v : Byte) : (s.setDT v).I = s.I := rfl
@[simp] theorem State.setDT_pc (v : Byte) : (s.setDT v).pc = s.pc := rfl
@[simp] theorem State.setDT_stack (v : Byte) : (s.setDT v).stack = s.stack := rfl
@[simp] theorem State.setDT_DT (v : Byte) : (s.setDT v).DT = v := rfl
@[simp] theorem State.setDT_ST (v : Byte) : (s.setDT v).ST = s.ST := rfl
@[simp] theorem State.setDT_mem (v : Byte) : (s.setDT v).mem = s.mem := rfl
@[simp] theorem State.setDT_disp (v : Byte) : (s.setDT v).disp = s.disp := rfl
@[simp] theorem State.setDT_keys (v : Byte) : (s.setDT v).keys = s.keys := rfl
@[simp] theorem State.setDT_run (v : Byte) : (s.setDT v).run = s.run := rfl
@[simp] theorem State.setDT_host (v : Byte) : (s.setDT v).host = s.host := rfl
@[simp] theorem State.setDT_reg (v : Byte) (x : RegIdx) : (s.setDT v).reg x = s.reg x := rfl

/-! ## `setST` -/

@[simp] theorem State.setST_V (v : Byte) : (s.setST v).V = s.V := rfl
@[simp] theorem State.setST_I (v : Byte) : (s.setST v).I = s.I := rfl
@[simp] theorem State.setST_pc (v : Byte) : (s.setST v).pc = s.pc := rfl
@[simp] theorem State.setST_stack (v : Byte) : (s.setST v).stack = s.stack := rfl
@[simp] theorem State.setST_DT (v : Byte) : (s.setST v).DT = s.DT := rfl
@[simp] theorem State.setST_ST (v : Byte) : (s.setST v).ST = v := rfl
@[simp] theorem State.setST_mem (v : Byte) : (s.setST v).mem = s.mem := rfl
@[simp] theorem State.setST_disp (v : Byte) : (s.setST v).disp = s.disp := rfl
@[simp] theorem State.setST_keys (v : Byte) : (s.setST v).keys = s.keys := rfl
@[simp] theorem State.setST_run (v : Byte) : (s.setST v).run = s.run := rfl
@[simp] theorem State.setST_host (v : Byte) : (s.setST v).host = s.host := rfl
@[simp] theorem State.setST_reg (v : Byte) (x : RegIdx) : (s.setST v).reg x = s.reg x := rfl

/-! ## `setMem` -/

@[simp] theorem State.setMem_V (v : Memory) : (s.setMem v).V = s.V := rfl
@[simp] theorem State.setMem_I (v : Memory) : (s.setMem v).I = s.I := rfl
@[simp] theorem State.setMem_pc (v : Memory) : (s.setMem v).pc = s.pc := rfl
@[simp] theorem State.setMem_stack (v : Memory) : (s.setMem v).stack = s.stack := rfl
@[simp] theorem State.setMem_DT (v : Memory) : (s.setMem v).DT = s.DT := rfl
@[simp] theorem State.setMem_ST (v : Memory) : (s.setMem v).ST = s.ST := rfl
@[simp] theorem State.setMem_mem (v : Memory) : (s.setMem v).mem = v := rfl
@[simp] theorem State.setMem_disp (v : Memory) : (s.setMem v).disp = s.disp := rfl
@[simp] theorem State.setMem_keys (v : Memory) : (s.setMem v).keys = s.keys := rfl
@[simp] theorem State.setMem_run (v : Memory) : (s.setMem v).run = s.run := rfl
@[simp] theorem State.setMem_host (v : Memory) : (s.setMem v).host = s.host := rfl
@[simp] theorem State.setMem_reg (v : Memory) (x : RegIdx) : (s.setMem v).reg x = s.reg x := rfl

/-! ## `setDisp` -/

@[simp] theorem State.setDisp_V (v : Display) : (s.setDisp v).V = s.V := rfl
@[simp] theorem State.setDisp_I (v : Display) : (s.setDisp v).I = s.I := rfl
@[simp] theorem State.setDisp_pc (v : Display) : (s.setDisp v).pc = s.pc := rfl
@[simp] theorem State.setDisp_stack (v : Display) : (s.setDisp v).stack = s.stack := rfl
@[simp] theorem State.setDisp_DT (v : Display) : (s.setDisp v).DT = s.DT := rfl
@[simp] theorem State.setDisp_ST (v : Display) : (s.setDisp v).ST = s.ST := rfl
@[simp] theorem State.setDisp_mem (v : Display) : (s.setDisp v).mem = s.mem := rfl
@[simp] theorem State.setDisp_disp (v : Display) : (s.setDisp v).disp = v := rfl
@[simp] theorem State.setDisp_keys (v : Display) : (s.setDisp v).keys = s.keys := rfl
@[simp] theorem State.setDisp_run (v : Display) : (s.setDisp v).run = s.run := rfl
@[simp] theorem State.setDisp_host (v : Display) : (s.setDisp v).host = s.host := rfl
@[simp] theorem State.setDisp_reg (v : Display) (x : RegIdx) : (s.setDisp v).reg x = s.reg x := rfl

/-! ## `setKeys` -/

@[simp] theorem State.setKeys_V (v : Word) : (s.setKeys v).V = s.V := rfl
@[simp] theorem State.setKeys_I (v : Word) : (s.setKeys v).I = s.I := rfl
@[simp] theorem State.setKeys_pc (v : Word) : (s.setKeys v).pc = s.pc := rfl
@[simp] theorem State.setKeys_stack (v : Word) : (s.setKeys v).stack = s.stack := rfl
@[simp] theorem State.setKeys_DT (v : Word) : (s.setKeys v).DT = s.DT := rfl
@[simp] theorem State.setKeys_ST (v : Word) : (s.setKeys v).ST = s.ST := rfl
@[simp] theorem State.setKeys_mem (v : Word) : (s.setKeys v).mem = s.mem := rfl
@[simp] theorem State.setKeys_disp (v : Word) : (s.setKeys v).disp = s.disp := rfl
@[simp] theorem State.setKeys_keys (v : Word) : (s.setKeys v).keys = v := rfl
@[simp] theorem State.setKeys_run (v : Word) : (s.setKeys v).run = s.run := rfl
@[simp] theorem State.setKeys_host (v : Word) : (s.setKeys v).host = s.host := rfl
@[simp] theorem State.setKeys_reg (v : Word) (x : RegIdx) : (s.setKeys v).reg x = s.reg x := rfl

/-! ## `setRun` -/

@[simp] theorem State.setRun_V (v : RunState) : (s.setRun v).V = s.V := rfl
@[simp] theorem State.setRun_I (v : RunState) : (s.setRun v).I = s.I := rfl
@[simp] theorem State.setRun_pc (v : RunState) : (s.setRun v).pc = s.pc := rfl
@[simp] theorem State.setRun_stack (v : RunState) : (s.setRun v).stack = s.stack := rfl
@[simp] theorem State.setRun_DT (v : RunState) : (s.setRun v).DT = s.DT := rfl
@[simp] theorem State.setRun_ST (v : RunState) : (s.setRun v).ST = s.ST := rfl
@[simp] theorem State.setRun_mem (v : RunState) : (s.setRun v).mem = s.mem := rfl
@[simp] theorem State.setRun_disp (v : RunState) : (s.setRun v).disp = s.disp := rfl
@[simp] theorem State.setRun_keys (v : RunState) : (s.setRun v).keys = s.keys := rfl
@[simp] theorem State.setRun_run (v : RunState) : (s.setRun v).run = v := rfl
@[simp] theorem State.setRun_host (v : RunState) : (s.setRun v).host = s.host := rfl
@[simp] theorem State.setRun_reg (v : RunState) (x : RegIdx) : (s.setRun v).reg x = s.reg x := rfl

/-! ## `setHost` -/

@[simp] theorem State.setHost_V (v : HostSide) : (s.setHost v).V = s.V := rfl
@[simp] theorem State.setHost_I (v : HostSide) : (s.setHost v).I = s.I := rfl
@[simp] theorem State.setHost_pc (v : HostSide) : (s.setHost v).pc = s.pc := rfl
@[simp] theorem State.setHost_stack (v : HostSide) : (s.setHost v).stack = s.stack := rfl
@[simp] theorem State.setHost_DT (v : HostSide) : (s.setHost v).DT = s.DT := rfl
@[simp] theorem State.setHost_ST (v : HostSide) : (s.setHost v).ST = s.ST := rfl
@[simp] theorem State.setHost_mem (v : HostSide) : (s.setHost v).mem = s.mem := rfl
@[simp] theorem State.setHost_disp (v : HostSide) : (s.setHost v).disp = s.disp := rfl
@[simp] theorem State.setHost_keys (v : HostSide) : (s.setHost v).keys = s.keys := rfl
@[simp] theorem State.setHost_run (v : HostSide) : (s.setHost v).run = s.run := rfl
@[simp] theorem State.setHost_host (v : HostSide) : (s.setHost v).host = v := rfl
@[simp] theorem State.setHost_reg (v : HostSide) (x : RegIdx) : (s.setHost v).reg x = s.reg x := rfl

/-! ## `setReg` -/

@[simp] theorem State.setReg_I (x : RegIdx) (v : Byte) : (s.setReg x v).I = s.I := rfl
@[simp] theorem State.setReg_pc (x : RegIdx) (v : Byte) : (s.setReg x v).pc = s.pc := rfl
@[simp] theorem State.setReg_stack (x : RegIdx) (v : Byte) : (s.setReg x v).stack = s.stack := rfl
@[simp] theorem State.setReg_DT (x : RegIdx) (v : Byte) : (s.setReg x v).DT = s.DT := rfl
@[simp] theorem State.setReg_ST (x : RegIdx) (v : Byte) : (s.setReg x v).ST = s.ST := rfl
@[simp] theorem State.setReg_mem (x : RegIdx) (v : Byte) : (s.setReg x v).mem = s.mem := rfl
@[simp] theorem State.setReg_disp (x : RegIdx) (v : Byte) : (s.setReg x v).disp = s.disp := rfl
@[simp] theorem State.setReg_keys (x : RegIdx) (v : Byte) : (s.setReg x v).keys = s.keys := rfl
@[simp] theorem State.setReg_run (x : RegIdx) (v : Byte) : (s.setReg x v).run = s.run := rfl
@[simp] theorem State.setReg_host (x : RegIdx) (v : Byte) : (s.setReg x v).host = s.host := rfl

/-- Reading a register after writing one. -/
theorem State.setReg_reg (x y : RegIdx) (v : Byte) : (s.setReg x v).reg y = if y = x then v else s.reg y := by
  simp [State.reg, State.setReg, Vector.getElem_set, Fin.ext_iff, eq_comm]

@[simp] theorem State.setReg_reg_same (x : RegIdx) (v : Byte) : (s.setReg x v).reg x = v := by
  simp [State.setReg_reg]

theorem State.setReg_reg_ne {x y : RegIdx} (h : y ≠ x) (v : Byte) : (s.setReg x v).reg y = s.reg y := by
  simp [State.setReg_reg, h]

/-! ## `setFlag` and `setRegFlag` -/

@[simp] theorem State.setFlag_I (b : Bool) : (s.setFlag b).I = s.I := rfl
@[simp] theorem State.setFlag_pc (b : Bool) : (s.setFlag b).pc = s.pc := rfl
@[simp] theorem State.setFlag_stack (b : Bool) : (s.setFlag b).stack = s.stack := rfl
@[simp] theorem State.setFlag_DT (b : Bool) : (s.setFlag b).DT = s.DT := rfl
@[simp] theorem State.setFlag_ST (b : Bool) : (s.setFlag b).ST = s.ST := rfl
@[simp] theorem State.setFlag_mem (b : Bool) : (s.setFlag b).mem = s.mem := rfl
@[simp] theorem State.setFlag_disp (b : Bool) : (s.setFlag b).disp = s.disp := rfl
@[simp] theorem State.setFlag_keys (b : Bool) : (s.setFlag b).keys = s.keys := rfl
@[simp] theorem State.setFlag_run (b : Bool) : (s.setFlag b).run = s.run := rfl
@[simp] theorem State.setFlag_host (b : Bool) : (s.setFlag b).host = s.host := rfl

theorem State.setFlag_reg (b : Bool) (y : RegIdx) : (s.setFlag b).reg y = if y = vf then flagByte b else s.reg y :=
  State.setReg_reg s vf y _

@[simp] theorem State.setRegFlag_I (x : RegIdx) (v : Byte) (b : Bool) : (s.setRegFlag x v b).I = s.I := rfl
@[simp] theorem State.setRegFlag_pc (x : RegIdx) (v : Byte) (b : Bool) : (s.setRegFlag x v b).pc = s.pc := rfl
@[simp] theorem State.setRegFlag_stack (x : RegIdx) (v : Byte) (b : Bool) : (s.setRegFlag x v b).stack = s.stack := rfl
@[simp] theorem State.setRegFlag_DT (x : RegIdx) (v : Byte) (b : Bool) : (s.setRegFlag x v b).DT = s.DT := rfl
@[simp] theorem State.setRegFlag_ST (x : RegIdx) (v : Byte) (b : Bool) : (s.setRegFlag x v b).ST = s.ST := rfl
@[simp] theorem State.setRegFlag_mem (x : RegIdx) (v : Byte) (b : Bool) : (s.setRegFlag x v b).mem = s.mem := rfl
@[simp] theorem State.setRegFlag_disp (x : RegIdx) (v : Byte) (b : Bool) : (s.setRegFlag x v b).disp = s.disp := rfl
@[simp] theorem State.setRegFlag_keys (x : RegIdx) (v : Byte) (b : Bool) : (s.setRegFlag x v b).keys = s.keys := rfl
@[simp] theorem State.setRegFlag_run (x : RegIdx) (v : Byte) (b : Bool) : (s.setRegFlag x v b).run = s.run := rfl
@[simp] theorem State.setRegFlag_host (x : RegIdx) (v : Byte) (b : Bool) : (s.setRegFlag x v b).host = s.host := rfl

/-- The flag stands when the destination is VF. -/
theorem State.setRegFlag_reg (x y : RegIdx) (v : Byte) (b : Bool) :
    (s.setRegFlag x v b).reg y = if y = vf then flagByte b else if y = x then v else s.reg y := by
  simp [State.setRegFlag, State.setFlag_reg, State.setReg_reg]

/-! ## `advance` and `skipIf` -/

@[simp] theorem State.advance_V : s.advance.V = s.V := rfl
@[simp] theorem State.advance_I : s.advance.I = s.I := rfl
@[simp] theorem State.advance_pc : s.advance.pc = s.pc + 2 := rfl
@[simp] theorem State.advance_stack : s.advance.stack = s.stack := rfl
@[simp] theorem State.advance_DT : s.advance.DT = s.DT := rfl
@[simp] theorem State.advance_ST : s.advance.ST = s.ST := rfl
@[simp] theorem State.advance_mem : s.advance.mem = s.mem := rfl
@[simp] theorem State.advance_disp : s.advance.disp = s.disp := rfl
@[simp] theorem State.advance_keys : s.advance.keys = s.keys := rfl
@[simp] theorem State.advance_run : s.advance.run = s.run := rfl
@[simp] theorem State.advance_host : s.advance.host = s.host := rfl
@[simp] theorem State.advance_reg (x : RegIdx) : s.advance.reg x = s.reg x := rfl

@[simp] theorem State.skipIf_pc (c : Bool) : (s.skipIf c).pc = if c then s.pc + 4 else s.pc + 2 := rfl
@[simp] theorem State.skipIf_V (c : Bool) : (s.skipIf c).V = s.V := rfl
@[simp] theorem State.skipIf_I (c : Bool) : (s.skipIf c).I = s.I := rfl
@[simp] theorem State.skipIf_stack (c : Bool) : (s.skipIf c).stack = s.stack := rfl
@[simp] theorem State.skipIf_DT (c : Bool) : (s.skipIf c).DT = s.DT := rfl
@[simp] theorem State.skipIf_ST (c : Bool) : (s.skipIf c).ST = s.ST := rfl
@[simp] theorem State.skipIf_mem (c : Bool) : (s.skipIf c).mem = s.mem := rfl
@[simp] theorem State.skipIf_disp (c : Bool) : (s.skipIf c).disp = s.disp := rfl
@[simp] theorem State.skipIf_keys (c : Bool) : (s.skipIf c).keys = s.keys := rfl
@[simp] theorem State.skipIf_run (c : Bool) : (s.skipIf c).run = s.run := rfl
@[simp] theorem State.skipIf_host (c : Bool) : (s.skipIf c).host = s.host := rfl
@[simp] theorem State.skipIf_reg (c : Bool) (x : RegIdx) : (s.skipIf c).reg x = s.reg x := rfl

/-! ## `loadRegRange` -/

@[simp] theorem State.loadRegRange_I (x : RegIdx) : (s.loadRegRange x).I = s.I := rfl
@[simp] theorem State.loadRegRange_pc (x : RegIdx) : (s.loadRegRange x).pc = s.pc := rfl
@[simp] theorem State.loadRegRange_stack (x : RegIdx) : (s.loadRegRange x).stack = s.stack := rfl
@[simp] theorem State.loadRegRange_DT (x : RegIdx) : (s.loadRegRange x).DT = s.DT := rfl
@[simp] theorem State.loadRegRange_ST (x : RegIdx) : (s.loadRegRange x).ST = s.ST := rfl
@[simp] theorem State.loadRegRange_mem (x : RegIdx) : (s.loadRegRange x).mem = s.mem := rfl
@[simp] theorem State.loadRegRange_disp (x : RegIdx) : (s.loadRegRange x).disp = s.disp := rfl
@[simp] theorem State.loadRegRange_keys (x : RegIdx) : (s.loadRegRange x).keys = s.keys := rfl
@[simp] theorem State.loadRegRange_run (x : RegIdx) : (s.loadRegRange x).run = s.run := rfl
@[simp] theorem State.loadRegRange_host (x : RegIdx) : (s.loadRegRange x).host = s.host := rfl

theorem State.loadRegRange_reg (x y : RegIdx) :
    (s.loadRegRange x).reg y = if y.val ≤ x.val then s.mem.read (s.I.toNat + y.val) else s.reg y := by
  simp [State.reg, State.loadRegRange, effectiveAddress]

/-! ## `drawRnd` -/

@[simp] theorem State.drawRnd_V : s.drawRnd.2.V = s.V := by
  unfold State.drawRnd; split <;> rfl
@[simp] theorem State.drawRnd_I : s.drawRnd.2.I = s.I := by
  unfold State.drawRnd; split <;> rfl
@[simp] theorem State.drawRnd_pc : s.drawRnd.2.pc = s.pc := by
  unfold State.drawRnd; split <;> rfl
@[simp] theorem State.drawRnd_stack : s.drawRnd.2.stack = s.stack := by
  unfold State.drawRnd; split <;> rfl
@[simp] theorem State.drawRnd_DT : s.drawRnd.2.DT = s.DT := by
  unfold State.drawRnd; split <;> rfl
@[simp] theorem State.drawRnd_ST : s.drawRnd.2.ST = s.ST := by
  unfold State.drawRnd; split <;> rfl
@[simp] theorem State.drawRnd_mem : s.drawRnd.2.mem = s.mem := by
  unfold State.drawRnd; split <;> rfl
@[simp] theorem State.drawRnd_disp : s.drawRnd.2.disp = s.disp := by
  unfold State.drawRnd; split <;> rfl
@[simp] theorem State.drawRnd_keys : s.drawRnd.2.keys = s.keys := by
  unfold State.drawRnd; split <;> rfl
@[simp] theorem State.drawRnd_run : s.drawRnd.2.run = s.run := by
  unfold State.drawRnd; split <;> rfl
@[simp] theorem State.drawRnd_reg (x : RegIdx) : s.drawRnd.2.reg x = s.reg x := by
  unfold State.drawRnd; split <;> rfl
@[simp] theorem State.drawRnd_agenda : s.drawRnd.2.host.agenda = s.host.agenda := by
  unfold State.drawRnd; split <;> rfl
@[simp] theorem State.drawRnd_results : s.drawRnd.2.host.results = s.host.results := by
  unfold State.drawRnd; split <;> rfl
@[simp] theorem State.drawRnd_phase : s.drawRnd.2.host.phase = s.host.phase := by
  unfold State.drawRnd; split <;> rfl

/-! ## `record` -/

@[simp] theorem State.record_V (r : HostResult) : (s.record r).V = s.V := rfl
@[simp] theorem State.record_I (r : HostResult) : (s.record r).I = s.I := rfl
@[simp] theorem State.record_pc (r : HostResult) : (s.record r).pc = s.pc := rfl
@[simp] theorem State.record_stack (r : HostResult) : (s.record r).stack = s.stack := rfl
@[simp] theorem State.record_DT (r : HostResult) : (s.record r).DT = s.DT := rfl
@[simp] theorem State.record_ST (r : HostResult) : (s.record r).ST = s.ST := rfl
@[simp] theorem State.record_mem (r : HostResult) : (s.record r).mem = s.mem := rfl
@[simp] theorem State.record_disp (r : HostResult) : (s.record r).disp = s.disp := rfl
@[simp] theorem State.record_keys (r : HostResult) : (s.record r).keys = s.keys := rfl
@[simp] theorem State.record_run (r : HostResult) : (s.record r).run = s.run := rfl
@[simp] theorem State.record_reg (r : HostResult) (x : RegIdx) : (s.record r).reg x = s.reg x := rfl
@[simp] theorem State.record_host_agenda (r : HostResult) : (s.record r).host.agenda = s.host.agenda := rfl
@[simp] theorem State.record_host_results (r : HostResult) : (s.record r).host.results = s.host.results ++ [r] := rfl
@[simp] theorem State.record_host_phase (r : HostResult) : (s.record r).host.phase = s.host.phase := rfl
@[simp] theorem State.record_host_rnds (r : HostResult) : (s.record r).host.rnds = s.host.rnds := rfl
@[simp] theorem State.record_host_draws (r : HostResult) : (s.record r).host.draws = s.host.draws := rfl

/-! ## `setPhase` -/

@[simp] theorem State.setPhase_V (p : Phase) : (s.setPhase p).V = s.V := rfl
@[simp] theorem State.setPhase_I (p : Phase) : (s.setPhase p).I = s.I := rfl
@[simp] theorem State.setPhase_pc (p : Phase) : (s.setPhase p).pc = s.pc := rfl
@[simp] theorem State.setPhase_stack (p : Phase) : (s.setPhase p).stack = s.stack := rfl
@[simp] theorem State.setPhase_DT (p : Phase) : (s.setPhase p).DT = s.DT := rfl
@[simp] theorem State.setPhase_ST (p : Phase) : (s.setPhase p).ST = s.ST := rfl
@[simp] theorem State.setPhase_mem (p : Phase) : (s.setPhase p).mem = s.mem := rfl
@[simp] theorem State.setPhase_disp (p : Phase) : (s.setPhase p).disp = s.disp := rfl
@[simp] theorem State.setPhase_keys (p : Phase) : (s.setPhase p).keys = s.keys := rfl
@[simp] theorem State.setPhase_run (p : Phase) : (s.setPhase p).run = s.run := rfl
@[simp] theorem State.setPhase_reg (p : Phase) (x : RegIdx) : (s.setPhase p).reg x = s.reg x := rfl
@[simp] theorem State.setPhase_host_agenda (p : Phase) : (s.setPhase p).host.agenda = s.host.agenda := rfl
@[simp] theorem State.setPhase_host_results (p : Phase) : (s.setPhase p).host.results = s.host.results := rfl
@[simp] theorem State.setPhase_host_phase (p : Phase) : (s.setPhase p).host.phase = p := rfl
@[simp] theorem State.setPhase_host_rnds (p : Phase) : (s.setPhase p).host.rnds = s.host.rnds := rfl
@[simp] theorem State.setPhase_host_draws (p : Phase) : (s.setPhase p).host.draws = s.host.draws := rfl

/-! ## `setAgenda` -/

@[simp] theorem State.setAgenda_V (ops : List HostOp) : (s.setAgenda ops).V = s.V := rfl
@[simp] theorem State.setAgenda_I (ops : List HostOp) : (s.setAgenda ops).I = s.I := rfl
@[simp] theorem State.setAgenda_pc (ops : List HostOp) : (s.setAgenda ops).pc = s.pc := rfl
@[simp] theorem State.setAgenda_stack (ops : List HostOp) : (s.setAgenda ops).stack = s.stack := rfl
@[simp] theorem State.setAgenda_DT (ops : List HostOp) : (s.setAgenda ops).DT = s.DT := rfl
@[simp] theorem State.setAgenda_ST (ops : List HostOp) : (s.setAgenda ops).ST = s.ST := rfl
@[simp] theorem State.setAgenda_mem (ops : List HostOp) : (s.setAgenda ops).mem = s.mem := rfl
@[simp] theorem State.setAgenda_disp (ops : List HostOp) : (s.setAgenda ops).disp = s.disp := rfl
@[simp] theorem State.setAgenda_keys (ops : List HostOp) : (s.setAgenda ops).keys = s.keys := rfl
@[simp] theorem State.setAgenda_run (ops : List HostOp) : (s.setAgenda ops).run = s.run := rfl
@[simp] theorem State.setAgenda_reg (ops : List HostOp) (x : RegIdx) : (s.setAgenda ops).reg x = s.reg x := rfl
@[simp] theorem State.setAgenda_host_agenda (ops : List HostOp) : (s.setAgenda ops).host.agenda = ops := rfl
@[simp] theorem State.setAgenda_host_results (ops : List HostOp) : (s.setAgenda ops).host.results = s.host.results := rfl
@[simp] theorem State.setAgenda_host_phase (ops : List HostOp) : (s.setAgenda ops).host.phase = s.host.phase := rfl
@[simp] theorem State.setAgenda_host_rnds (ops : List HostOp) : (s.setAgenda ops).host.rnds = s.host.rnds := rfl
@[simp] theorem State.setAgenda_host_draws (ops : List HostOp) : (s.setAgenda ops).host.draws = s.host.draws := rfl

/-! ## `settle` -/

@[simp] theorem State.settle_V : s.settle.V = s.V := rfl
@[simp] theorem State.settle_I : s.settle.I = s.I := rfl
@[simp] theorem State.settle_pc : s.settle.pc = s.pc := rfl
@[simp] theorem State.settle_stack : s.settle.stack = s.stack := rfl
@[simp] theorem State.settle_DT : s.settle.DT = s.DT := rfl
@[simp] theorem State.settle_ST : s.settle.ST = s.ST := rfl
@[simp] theorem State.settle_mem : s.settle.mem = s.mem := rfl
@[simp] theorem State.settle_disp : s.settle.disp = s.disp := rfl
@[simp] theorem State.settle_keys : s.settle.keys = s.keys := rfl
@[simp] theorem State.settle_run : s.settle.run = s.run := rfl
@[simp] theorem State.settle_host_phase : s.settle.host.phase = s.host.phase.settle := rfl

/-! ## Reset with any font table -/

@[simp] theorem State.resetWith_V (g : Config.Font) : (State.resetWith g).V = State.reset.V := rfl
@[simp] theorem State.resetWith_I (g : Config.Font) : (State.resetWith g).I = State.reset.I := rfl
@[simp] theorem State.resetWith_pc (g : Config.Font) : (State.resetWith g).pc = State.reset.pc := rfl
@[simp] theorem State.resetWith_stack (g : Config.Font) : (State.resetWith g).stack = State.reset.stack := rfl
@[simp] theorem State.resetWith_DT (g : Config.Font) : (State.resetWith g).DT = State.reset.DT := rfl
@[simp] theorem State.resetWith_ST (g : Config.Font) : (State.resetWith g).ST = State.reset.ST := rfl
@[simp] theorem State.resetWith_disp (g : Config.Font) : (State.resetWith g).disp = State.reset.disp := rfl
@[simp] theorem State.resetWith_keys (g : Config.Font) : (State.resetWith g).keys = State.reset.keys := rfl
@[simp] theorem State.resetWith_run (g : Config.Font) : (State.resetWith g).run = State.reset.run := rfl
@[simp] theorem State.resetWith_host (g : Config.Font) : (State.resetWith g).host = State.reset.host := rfl
@[simp] theorem State.resetWith_mem (g : Config.Font) : (State.resetWith g).mem = Memory.ofFont g := rfl

/-- The default of FONT gives `State.reset`. -/
theorem State.resetWith_default : State.resetWith defaultFont = State.reset := by
  rw [State.resetWith, Memory.ofFont_default]; rfl

end Sys2Proof.Machine
end

