-- ==== Sys2Proof/Laws/Ops.lean ====
section
/-! SUPPORT. What each shared operation can do, said once: the conditions under which it goes on or faults, and what it gives. -/

namespace Sys2Proof.Machine

/-! ## Flags and operand forms as numbers -/

@[simp] theorem flagByte_true : flagByte true = 0x01 := rfl
@[simp] theorem flagByte_false : flagByte false = 0x00 := rfl

theorem flagByte_cases (b : Bool) : flagByte b = 0x00 ∨ flagByte b = 0x01 := by cases b <;> simp

theorem carryOut_eq_true {a b : Byte} : carryOut a b = true ↔ 255 < a.toNat + b.toNat := by simp [carryOut]

theorem noBorrow_eq_true {a b : Byte} : noBorrow a b = true ↔ b.toNat ≤ a.toNat := by simp [noBorrow]

theorem sum8_toNat (a b : Byte) : (sum8 a b).toNat = (a.toNat + b.toNat) % 256 := by simp [sum8, BitVec.toNat_add]

theorem diff8_toNat (a b : Byte) :
    (diff8 a b).toNat = if b.toNat ≤ a.toNat then a.toNat - b.toNat else a.toNat + 256 - b.toNat := by
  simp only [diff8, BitVec.toNat_sub]
  split <;> omega

theorem shiftRight1_toNat (a : Byte) : (shiftRight1 a).toNat = a.toNat / 2 := by
  simp [shiftRight1, BitVec.toNat_ushiftRight, Nat.shiftRight_eq_div_pow]

theorem shiftLeft1_toNat (a : Byte) : (shiftLeft1 a).toNat = a.toNat * 2 % 256 := by
  simp [shiftLeft1, BitVec.toNat_shiftLeft, Nat.shiftLeft_eq]

theorem shiftedOutRight_eq (a : Byte) : shiftedOutRight a = (a.toNat % 2 == 1) := by
  simp [shiftedOutRight, BitVec.getLsbD, Nat.testBit]

theorem shiftedOutLeft_eq (a : Byte) : shiftedOutLeft a = decide (128 ≤ a.toNat) := by
  have h : ∀ a : Byte, a.getLsbD 7 = decide (128 ≤ a.toNat) := by decide
  exact h a

@[simp] theorem zext12_toNat (nnn : Imm12) : (zext12 nnn).toNat = nnn.toNat := by
  simp [zext12, BitVec.toNat_setWidth]; omega

@[simp] theorem zext8_toNat (v : Byte) : (zext8 v).toNat = v.toNat := by
  simp [zext8, BitVec.toNat_setWidth]; omega

theorem offsetTarget_toNat (v : Byte) (nnn : Imm12) : (offsetTarget v nnn).toNat = v.toNat + nnn.toNat := by
  simp only [offsetTarget, BitVec.toNat_add, zext8_toNat, zext12_toNat]; omega

theorem indexSum_toNat (i : Word) (v : Byte) : (indexSum i v).toNat = (i.toNat + v.toNat) % 65536 := by
  simp [indexSum, BitVec.toNat_add]

theorem glyphAddress_toNat (v : Byte) : (glyphAddress v).toNat = 5 * (v.toNat % 16) := by
  simp [glyphAddress, Config.fontBase, Config.glyphStride]; omega

theorem rangeInMemory_eq_true {i : Word} {n : Nat} :
    rangeInMemory i n = true ↔ i.toNat + n ≤ 0x1000 ∨ n = 0 := by
  unfold rangeInMemory effectiveAddress
  rw [Bool.or_eq_true, decide_eq_true_eq, beq_iff_eq]

@[simp] theorem bcdDigits_length (v : Byte) : (bcdDigits v).length = 3 := rfl

@[simp] theorem regRange_length (s : State) (x : RegIdx) : (s.regRange x).length = x.val + 1 := by
  simp [State.regRange]

theorem regRange_getElem (s : State) (x : RegIdx) (k : Nat) (h : k < (s.regRange x).length) :
    (s.regRange x)[k] = s.reg ⟨k, by simp at h; omega⟩ := by
  simp [State.regRange, State.reg]

/-! ## Keys -/

theorem mem_pressedKeys {keys : Word} {k : Key} : k ∈ pressedKeys keys ↔ keys.getLsbD k.val = true := by
  simp [pressedKeys]

/-- KEY_PICK returns a member of its argument (spec/44_keypad_timers.md R124). -/
theorem pickKey_pressed {keys : Word} {k : Key} (h : pickKey keys = some k) : keys.getLsbD k.val = true := by
  rw [← mem_pressedKeys]
  unfold pickKey at h
  split at h
  · cases h
  · rename_i heq; cases h; simp [heq]
  · rename_i a b l heq
    rw [heq, ← Option.some.inj h, List.getD_eq_getElem _ _ (Nat.mod_lt _ (by simp))]
    exact List.getElem_mem _

/-- KEY_PICK has a result exactly when a key is pressed. -/
theorem pickKey_eq_none {keys : Word} : pickKey keys = none ↔ keys = 0 := by
  have h : pickKey keys = none ↔ pressedKeys keys = [] := by
    unfold pickKey
    split <;> simp_all
  rw [h, List.eq_nil_iff_forall_not_mem]
  constructor
  · intro hk
    apply BitVec.eq_of_getLsbD_eq
    intro i hi
    have := hk ⟨i, hi⟩
    rw [mem_pressedKeys] at this
    simpa using this
  · rintro rfl k hk
    rw [mem_pressedKeys] at hk
    simp at hk

/-! ## Operations that can fault -/

theorem withRange_next {s t : State} {n : Nat} {k : Result} (h : s.withRange n k = .next t) :
    rangeInMemory s.I n = true ∧ k = .next t := by
  unfold State.withRange at h
  split at h
  · exact ⟨‹_›, h⟩
  · cases h

theorem withRange_of_inMemory {s : State} {n : Nat} {k : Result} (h : rangeInMemory s.I n = true) :
    s.withRange n k = k := by simp [State.withRange, h]

theorem withRange_of_outside {s : State} {n : Nat} {k : Result} (h : rangeInMemory s.I n = false) :
    s.withRange n k = .fault .memoryAddressOutOfRange := by simp [State.withRange, h, raise]

theorem callTo_of_room {s : State} {a : Word} (h : s.stack.length < Config.stackDepth) :
    s.callTo a = .next ((s.setStack (s.stack ++ [s.pc + 2])).setPc a) := by simp [State.callTo, h]

theorem callTo_of_full {s : State} {a : Word} (h : Config.stackDepth ≤ s.stack.length) :
    s.callTo a = .fault .stackOverflow := by
  unfold State.callTo
  rw [if_neg (by omega)]; rfl

theorem callTo_next {s t : State} {a : Word} (h : s.callTo a = .next t) :
    s.stack.length < Config.stackDepth ∧ t = (s.setStack (s.stack ++ [s.pc + 2])).setPc a := by
  unfold State.callTo at h
  split at h
  · cases h; exact ⟨‹_›, rfl⟩
  · cases h

theorem popToPc_concat {s : State} {l : List Word} {a : Word} (h : s.stack = l ++ [a]) :
    s.popToPc = .next ((s.setStack l).setPc a) := by simp [State.popToPc, h]

theorem popToPc_empty {s : State} (h : s.stack = []) : s.popToPc = .fault .stackUnderflow := by
  simp [State.popToPc, h, raise]

theorem popToPc_next {s t : State} (h : s.popToPc = .next t) :
    ∃ l a, s.stack = l ++ [a] ∧ t = (s.setStack l).setPc a := by
  rcases List.eq_nil_or_concat s.stack with hs | ⟨l, a, hs⟩
  · rw [popToPc_empty hs] at h; cases h
  · rw [List.concat_eq_append] at hs
    rw [popToPc_concat hs] at h
    cases h
    exact ⟨l, a, hs, rfl⟩

end Sys2Proof.Machine
end

