-- ==== Sys2Proof/Laws/PerInstr.lean ====
section
/-! SUPPORT. The per-instruction family `EncodesIntoItsRow`: the word of an instruction selects the row of the opcode table
its constructor stands for (spec/30_encoding.md R55). -/

namespace Sys2Proof.Laws

/-- The digits of a word under a mask that keeps the first. -/
theorem formatA_row (op : Nibble) (nnn : Imm12) : formatA op nnn &&& 0xF000#16 = op ++ 0x000#12 := by
  apply BitVec.eq_of_getLsbD_eq
  intro i hi
  simp only [formatA, BitVec.getLsbD_and, BitVec.getLsbD_append]
  by_cases h : i < 12
  · interval_cases i <;> simp
  · interval_cases i <;> simp_all

theorem formatI_row (op : Nibble) (x : RegIdx) (kk : Byte) : formatI op x kk &&& 0xF000#16 = op ++ 0x000#12 := by
  apply BitVec.eq_of_getLsbD_eq
  intro i hi
  simp only [formatI, BitVec.getLsbD_and, BitVec.getLsbD_append]
  interval_cases i <;> simp

theorem formatX_row (op : Nibble) (x : RegIdx) (kk : Byte) :
    formatI op x kk &&& 0xF0FF#16 = op ++ 0x0#4 ++ kk := by
  apply BitVec.eq_of_getLsbD_eq
  intro i hi
  simp only [formatI, BitVec.getLsbD_and, BitVec.getLsbD_append]
  interval_cases i <;> simp

theorem formatR_row (op : Nibble) (x y : RegIdx) (n : Nibble) :
    formatR op x y n &&& 0xF00F#16 = op ++ 0x00#8 ++ n := by
  apply BitVec.eq_of_getLsbD_eq
  intro i hi
  simp only [formatR, digits, BitVec.getLsbD_and, BitVec.getLsbD_append]
  interval_cases i <;> simp

theorem formatD_row (op : Nibble) (x y : RegIdx) (n : Nibble) : formatR op x y n &&& 0xF000#16 = op ++ 0x000#12 := by
  apply BitVec.eq_of_getLsbD_eq
  intro i hi
  simp only [formatR, digits, BitVec.getLsbD_and, BitVec.getLsbD_append]
  interval_cases i <;> simp

namespace EncodesIntoItsRow

/-- The word of the instruction, under its row's mask, is its row's pattern. -/
def Statement (i : Instr) : Prop := encode i &&& (rowOf i).mask = (rowOf i).pattern

theorem cls : Statement .cls := rfl
theorem ret : Statement .ret := rfl
theorem jp (nnn : Imm12) : Statement (.jp nnn) := formatA_row _ _
theorem call (nnn : Imm12) : Statement (.call nnn) := formatA_row _ _
theorem seImm (x : RegIdx) (kk : Byte) : Statement (.seImm x kk) := formatI_row _ _ _
theorem sneImm (x : RegIdx) (kk : Byte) : Statement (.sneImm x kk) := formatI_row _ _ _
theorem seReg (x y : RegIdx) : Statement (.seReg x y) := formatR_row _ _ _ _
theorem ldImm (x : RegIdx) (kk : Byte) : Statement (.ldImm x kk) := formatI_row _ _ _
theorem addImm (x : RegIdx) (kk : Byte) : Statement (.addImm x kk) := formatI_row _ _ _
theorem ldReg (x y : RegIdx) : Statement (.ldReg x y) := formatR_row _ _ _ _
theorem orReg (x y : RegIdx) : Statement (.orReg x y) := formatR_row _ _ _ _
theorem andReg (x y : RegIdx) : Statement (.andReg x y) := formatR_row _ _ _ _
theorem xorReg (x y : RegIdx) : Statement (.xorReg x y) := formatR_row _ _ _ _
theorem addReg (x y : RegIdx) : Statement (.addReg x y) := formatR_row _ _ _ _
theorem subReg (x y : RegIdx) : Statement (.subReg x y) := formatR_row _ _ _ _
theorem shr (x y : RegIdx) : Statement (.shr x y) := formatR_row _ _ _ _
theorem subnReg (x y : RegIdx) : Statement (.subnReg x y) := formatR_row _ _ _ _
theorem shl (x y : RegIdx) : Statement (.shl x y) := formatR_row _ _ _ _
theorem sneReg (x y : RegIdx) : Statement (.sneReg x y) := formatR_row _ _ _ _
theorem ldI (nnn : Imm12) : Statement (.ldI nnn) := formatA_row _ _
theorem jpV0 (nnn : Imm12) : Statement (.jpV0 nnn) := formatA_row _ _
theorem rnd (x : RegIdx) (kk : Byte) : Statement (.rnd x kk) := formatI_row _ _ _
theorem drw (x y : RegIdx) (n : Fin 16) : Statement (.drw x y n) := formatD_row _ _ _ _
theorem skp (x : RegIdx) : Statement (.skp x) := formatX_row _ _ _
theorem sknp (x : RegIdx) : Statement (.sknp x) := formatX_row _ _ _
theorem ldVxDT (x : RegIdx) : Statement (.ldVxDT x) := formatX_row _ _ _
theorem ldVxK (x : RegIdx) : Statement (.ldVxK x) := formatX_row _ _ _
theorem ldDTVx (x : RegIdx) : Statement (.ldDTVx x) := formatX_row _ _ _
theorem ldSTVx (x : RegIdx) : Statement (.ldSTVx x) := formatX_row _ _ _
theorem addI (x : RegIdx) : Statement (.addI x) := formatX_row _ _ _
theorem ldF (x : RegIdx) : Statement (.ldF x) := formatX_row _ _ _
theorem ldB (x : RegIdx) : Statement (.ldB x) := formatX_row _ _ _
theorem storeRegs (x : RegIdx) : Statement (.storeRegs x) := formatX_row _ _ _
theorem loadRegs (x : RegIdx) : Statement (.loadRegs x) := formatX_row _ _ _

end EncodesIntoItsRow

end Sys2Proof.Laws
end

