-- ==== Sys2Proof/Laws/Step.lean ====
section
/-! SUPPORT. What a cycle and a step can do: if they answer a next state, then one of these cases holds. -/

namespace Sys2Proof.Machine

theorem fetchWord_eq_some {s : State} {w : Word} (h : s.fetchWord = some w) :
    s.pc.toNat ≤ 0xFFE ∧ w = wordOfBytes (s.mem.read s.pc.toNat) (s.mem.read (s.pc.toNat + 1)) := by
  unfold State.fetchWord at h
  split at h
  · rename_i hle
    have : Config.maxAddr = 0xFFF := rfl
    exact ⟨by omega, (Option.some.inj h).symm⟩
  · cases h

theorem fetchWord_of_le {s : State} (h : s.pc.toNat ≤ 0xFFE) :
    s.fetchWord = some (wordOfBytes (s.mem.read s.pc.toNat) (s.mem.read (s.pc.toNat + 1))) := by
  have : Config.maxAddr = 0xFFF := rfl
  unfold State.fetchWord
  rw [if_pos (by omega)]

theorem fetchWord_of_gt {s : State} (h : 0xFFE < s.pc.toNat) : s.fetchWord = none := by
  have : Config.maxAddr = 0xFFF := rfl
  unfold State.fetchWord
  rw [if_neg (by omega)]

/-- The second half of FX0A either changes nothing, no key being pressed, or ends the wait with a pressed key. -/
theorem completeWait_next {t : RegIdx} {s u : State} (h : completeWait t s = .next u) :
    (s.keys = 0 ∧ u = s) ∨
    (∃ k : Key, s.keys.getLsbD k.val = true ∧ u = (s.setReg t (keyByte k)).advance.setRun .running) := by
  unfold completeWait at h
  split at h
  · rename_i hk; cases h; exact .inl ⟨pickKey_eq_none.mp hk, rfl⟩
  · rename_i k hk; cases h; exact .inr ⟨k, pickKey_pressed hk, rfl⟩

/-- The second half of FX0A always goes on. -/
theorem completeWait_exists_next (t : RegIdx) (s : State) : ∃ u, completeWait t s = .next u := by
  unfold completeWait
  split <;> exact ⟨_, rfl⟩

/-- A cycle that goes on is the second half of a wait, or executes the instruction it fetched. -/
theorem runCycle_next {s t : State} (h : runCycle s = .next t) :
    (∃ r, s.run = .awaitingKey r ∧ completeWait r s = .next t) ∨
    (s.run = .running ∧ ∃ w i, s.fetchWord = some w ∧ decode w = .ok i ∧ exec i s = .next t) := by
  unfold runCycle at h
  split at h
  · rename_i r hr; exact .inl ⟨r, hr, h⟩
  · rename_i hr
    split at h
    · cases h
    · rename_i w hw
      split at h
      · cases h
      · rename_i i hi; exact .inr ⟨hr, w, i, hw, hi, h⟩

theorem runCycle_of_executes {s : State} {w : Word} {i : Instr} (hr : s.run = .running) (hw : s.fetchWord = some w)
    (hi : decode w = .ok i) : runCycle s = exec i s := by simp [runCycle, hr, hw, hi]

theorem runCycle_of_waiting {s : State} {t : RegIdx} (hr : s.run = .awaitingKey t) :
    runCycle s = completeWait t s := by simp [runCycle, hr]

/-- Delivering a fault goes on only when the host's next operation is another than `run_cycle`. -/
theorem deliverFault_next {f : Fault} {s t : State} (h : deliverFault f s = .next t) :
    (∃ op ops, s.host.agenda = op :: ops ∧ op.goesOn = true) ∧ t = (s.record (.fault f)).setPhase .faulted := by
  unfold deliverFault at h
  split at h
  · cases h
  · rename_i op ops ha
    split at h
    · rename_i hg; cases h; exact ⟨⟨op, ops, ha, hg⟩, rfl⟩
    · cases h

/-- A carried-out `run_cycle` goes on after its cycle, or after a fault that the host goes on from. -/
theorem performCycle_next {s t : State} (h : performCycle s = .next t) :
    (∃ u, runCycle s = .next u ∧ t = u.setPhase .started) ∨
    (∃ f, runCycle s = .fault f ∧ (∃ op ops, s.host.agenda = op :: ops ∧ op.goesOn = true) ∧
      t = (s.record (.fault f)).setPhase .faulted) := by
  unfold performCycle at h
  split at h
  · rename_i u hu; cases h; exact .inl ⟨u, hu, rfl⟩
  · rename_i f hf; exact .inr ⟨f, hf, deliverFault_next h⟩
  · cases h

theorem performLoad_next {bytes : List Byte} {s t : State} (h : performLoad bytes s = .next t) :
    s.host.phase = .fresh ∧ s.run = .running ∧ bytes.length ≤ Config.maxRom ∧
      t = (s.setMem (s.mem.writeBytes Config.progBase bytes)).setPhase .started := by
  unfold performLoad loadProgram at h
  split at h
  · rename_i hp
    by_cases hf : romFits bytes = true
    · simp only [hf, if_true] at h
      cases h
      exact ⟨hp.1, hp.2, by simpa [romFits] using hf, rfl⟩
    · simp [hf, raise] at h
  · cases h

theorem performSkip_next {s t : State} (h : performSkip s = .next t) :
    s.host.phase = .faulted ∧ t = (skipInstruction s).settle := by
  unfold performSkip at h
  split at h
  · cases h; exact ⟨‹_›, rfl⟩
  · cases h

/-- What a step that goes on can be: a cycle (planned or not), or one of the other operations. `s'` is the state with the
operation taken off the agenda. -/
theorem step_next {s t : State} (h : step s = .next t) :
    (∃ s', performCycle s' = .next t ∧
      ((s.host.agenda = [] ∧ s' = s) ∨ ∃ ops, s.host.agenda = .runCycle :: ops ∧ s' = s.setAgenda ops)) ∨
    (∃ bytes ops, s.host.agenda = .loadProgram bytes :: ops ∧ performLoad bytes (s.setAgenda ops) = .next t) ∨
    (∃ ops, s.host.agenda = .tickTimers :: ops ∧
      t = ((tickTimers (s.setAgenda ops)).1.record (.beep (tickTimers (s.setAgenda ops)).2)).settle) ∨
    (∃ pressed ops, s.host.agenda = .setKeys pressed :: ops ∧ t = (setKeys pressed (s.setAgenda ops)).settle) ∨
    (∃ ops, s.host.agenda = .displaySnapshot :: ops ∧
      t = ((s.setAgenda ops).record (.pixels s.disp.snapshot)).settle) ∨
    (∃ ops, s.host.agenda = .skipInstruction :: ops ∧ performSkip (s.setAgenda ops) = .next t) := by
  unfold step nextOperation at h
  split at h
  · rename_i ha; exact .inl ⟨s, h, .inl ⟨ha, rfl⟩⟩
  · rename_i op ops ha
    cases op with
    | runCycle => exact .inl ⟨_, h, .inr ⟨ops, ha, rfl⟩⟩
    | loadProgram bytes => exact .inr (.inl ⟨bytes, ops, ha, h⟩)
    | tickTimers => cases h; exact .inr (.inr (.inl ⟨ops, ha, rfl⟩))
    | setKeys pressed => cases h; exact .inr (.inr (.inr (.inl ⟨pressed, ops, ha, rfl⟩)))
    | displaySnapshot => cases h; exact .inr (.inr (.inr (.inr (.inl ⟨ops, ha, rfl⟩))))
    | skipInstruction => exact .inr (.inr (.inr (.inr (.inr ⟨ops, ha, h⟩))))

/-! ## The host's side of the state -/

theorem step_of_agenda_nil {s : State} (ha : s.host.agenda = []) : step s = performCycle s := by
  simp [step, nextOperation, ha]

theorem step_of_agenda_cons {s : State} {op : HostOp} {ops : List HostOp} (ha : s.host.agenda = op :: ops) :
    step s = perform op (s.setAgenda ops) := by simp [step, nextOperation, ha]

/-- A result with the host's side of its state replaced by `h`, but for the supply of random bytes, which it keeps. -/
def withHostOf (h : HostSide) : Result → Result
  | .next t => .next (t.setHost { h with rnds := t.host.rnds, draws := t.host.draws })
  | .fault f => .fault f
  | .refused r => .refused r

theorem withRange_setHost {s : State} {h : HostSide} {n : Nat} {k k' : Result} (hk : k' = withHostOf h k) :
    (s.setHost h).withRange n k' = withHostOf h (s.withRange n k) := by
  subst hk
  cases hr : rangeInMemory s.I n
  · rw [withRange_of_outside hr, withRange_of_outside (s := s.setHost h) hr]; rfl
  · rw [withRange_of_inMemory hr, withRange_of_inMemory (s := s.setHost h) hr]

/-- Instructions do not depend on the host's agenda, results and phase, and leave them as they are. -/
theorem exec_setHost (i : Instr) (s : State) (h : HostSide) (hr : h.rnds = s.host.rnds) (hd : h.draws = s.host.draws) :
    exec i (s.setHost h) = withHostOf h (exec i s) := by
  cases i
  case ret =>
    show (s.setHost h).popToPc = withHostOf h s.popToPc
    rcases List.eq_nil_or_concat s.stack with hs | ⟨l, a, hs⟩
    · rw [popToPc_empty hs, popToPc_empty (s := s.setHost h) hs]; rfl
    · rw [List.concat_eq_append] at hs
      rw [popToPc_concat hs, popToPc_concat (s := s.setHost h) hs]
      simp only [withHostOf, State.setPc_host, State.setStack_host]; rw [← hr, ← hd]; rfl
  case call n =>
    show (s.setHost h).callTo _ = withHostOf h (s.callTo _)
    rcases Nat.lt_or_ge s.stack.length Config.stackDepth with hs | hs
    · rw [callTo_of_room hs, callTo_of_room (s := s.setHost h) hs]
      simp only [withHostOf, State.setPc_host, State.setStack_host]; rw [← hr, ← hd]; rfl
    · rw [callTo_of_full hs, callTo_of_full (s := s.setHost h) hs]; rfl
  case rnd x kk =>
    obtain ⟨a, b, c, d, e⟩ := h
    simp only at hr hd
    subst hr hd
    obtain ⟨V, I, pc, stack, DT, ST, mem, disp, keys, run, ⟨a', b', c', d', e'⟩⟩ := s
    cases d' <;> rfl
  all_goals
    obtain ⟨a, b, c, d, e⟩ := h
    simp only at hr hd
    subst hr hd
  case ldB x => exact withRange_setHost rfl
  case storeRegs x => exact withRange_setHost rfl
  case loadRegs x => exact withRange_setHost rfl
  case drw x y n => exact withRange_setHost rfl
  all_goals rfl

theorem exec_keeps_host {i : Instr} {s t : State} (h : exec i s = .next t) :
    t.host = { s.host with rnds := t.host.rnds, draws := t.host.draws } := by
  have h3 := exec_setHost i s s.host rfl rfl
  change exec i s = _ at h3
  rw [h] at h3
  exact congrArg State.host (Host.Outcome.next.inj h3)

theorem completeWait_setHost (t : RegIdx) (s : State) (h : HostSide) (hr : h.rnds = s.host.rnds)
    (hd : h.draws = s.host.draws) : completeWait t (s.setHost h) = withHostOf h (completeWait t s) := by
  obtain ⟨a, b, c, d, e⟩ := h
  simp only at hr hd
  subst hr hd
  simp only [completeWait, State.setHost_keys]
  cases pickKey s.keys <;> rfl

/-- Nor does a cycle. -/
theorem runCycle_setHost (s : State) (h : HostSide) (hr : h.rnds = s.host.rnds) (hd : h.draws = s.host.draws) :
    runCycle (s.setHost h) = withHostOf h (runCycle s) := by
  unfold runCycle
  rw [State.setHost_run, show (s.setHost h).fetchWord = s.fetchWord from rfl]
  cases s.run with
  | awaitingKey t => exact completeWait_setHost t s h hr hd
  | running =>
    cases s.fetchWord with
    | none => rfl
    | some w =>
      cases hw : decode w with
      | error e => simp only [hw]; rfl
      | ok i => simp only [hw]; exact exec_setHost i s h hr hd

end Sys2Proof.Machine
end

