-- ==== Sys2Proof/Tests/Slice0.lean ====
section
/-! SUPPORT. The model's own tests. Expected values come from spec/95_test_vectors.md (the vector's name is in the docstring) or,
for the encodings, from the patterns of spec/30_encoding.md R55; never from the model. Then one witness for every
statement that has hypotheses. -/

namespace Sys2Proof.Tests

open Sys2Proof Sys2Proof.Machine

/-! ## Helpers -/

def nextOf : Result → Option State
  | .next t => some t
  | .fault _ => none
  | .refused _ => none

def faultOf : Result → Option Fault
  | .next _ => none
  | .fault f => some f
  | .refused _ => none

def refusalOf : Result → Option Refusal
  | .next _ => none
  | .fault _ => none
  | .refused r => some r

/-- The state after reset with some registers, I and some bytes of memory set. -/
def start (rs : List (RegIdx × Byte)) (i : Word := 0) (ms : List (Nat × Byte) := []) : State :=
  let s := rs.foldl (fun s r => s.setReg r.1 r.2) State.reset
  (s.setI i).setMem (ms.foldl (fun m c => m.write c.1 c.2) s.mem)

/-- A display with just these pixels set, written as in the test vectors: (row, column). -/
def dots (ps : List (Fin 32 × Fin 64)) : Display := ps.foldl (fun d p => Display.flip d p.1 p.2) Display.clear

/-- What a test looks at: after executing `i`. -/
def after {α : Type} (i : Instr) (s : State) (look : State → α) : Option α := (nextOf (exec i s)).map look

/-- The state with these operations on the host's agenda. -/
def asked (ops : List HostOp) (s : State) : State := s.setAgenda ops

/-- A state that waits for a key for V[t]: the word FX0A lies at pc. -/
def waiting (t : RegIdx) (keys : Word) : State :=
  ((((start [] 0 [(0x20A, 0xF2), (0x20B, 0x0A)]).setPc 0x20A).setKeys keys).setRun (.awaitingKey t)).setPhase .started

/-! ## Well-formedness: each check refuses an ill-formed term -/

theorem test_illegal_group_0 : legalWord 0x0000 = false ∧ legalWord 0x00E1 = false ∧ legalWord 0x0FEE = false := by decide
theorem test_illegal_group_5 : legalWord 0x5AB1 = false ∧ legalWord 0x5AB0 = true := by decide
theorem test_illegal_group_8 : legalWord 0x8AB8 = false ∧ legalWord 0x8ABF = false ∧ legalWord 0x8ABE = true := by decide
theorem test_illegal_group_9 : legalWord 0x9ABE = false ∧ legalWord 0x9AB0 = true := by decide
theorem test_illegal_group_E : legalWord 0xE09F = false ∧ legalWord 0xE0A0 = false ∧ legalWord 0xEF9E = true := by decide
theorem test_illegal_group_F : legalWord 0xF075 = false ∧ legalWord 0xFFFF = false ∧ legalWord 0xF065 = true := by decide

/-- S7: 3584 bytes fit, 3585 do not. -/
theorem test_rom_bound :
    romFits (List.replicate 3584 0x01) = true ∧ romFits (List.replicate 3585 0x01) = false := by
  simp only [romFits, Config.maxRom, List.length_replicate]; decide

/-- R58: the assembler's form has Y = 0. -/
theorem test_assembler_form :
    Instr.assemblerForm (.shr 1 2) = false ∧ Instr.assemblerForm (.shl 1 15) = false ∧
    Instr.assemblerForm (.shr 1 0) = true := by decide

/-! ## Decoding: words written bit by bit from the patterns of R55, X = 1010, Y = 1011, N = 0101, KK = 1100_0011 -/

theorem test_decode_control :
    decode 0b0000000011101110#16 = .ok .ret ∧ decode 0b0001101010111100#16 = .ok (.jp 0b101010111100#12) ∧
    decode 0b0010101010111100#16 = .ok (.call 0b101010111100#12) ∧
    decode 0b0011101011000011#16 = .ok (.seImm 10 0b11000011#8) ∧
    decode 0b0100101011000011#16 = .ok (.sneImm 10 0b11000011#8) ∧
    decode 0b0101101010110000#16 = .ok (.seReg 10 11) ∧ decode 0b1001101010110000#16 = .ok (.sneReg 10 11) ∧
    decode 0b1011101010111100#16 = .ok (.jpV0 0b101010111100#12) := by decide

theorem test_decode_load_and_logic :
    decode 0b0110101011000011#16 = .ok (.ldImm 10 0b11000011#8) ∧
    decode 0b0111101011000011#16 = .ok (.addImm 10 0b11000011#8) ∧
    decode 0b1000101010110000#16 = .ok (.ldReg 10 11) ∧ decode 0b1000101010110001#16 = .ok (.orReg 10 11) ∧
    decode 0b1000101010110010#16 = .ok (.andReg 10 11) ∧ decode 0b1000101010110011#16 = .ok (.xorReg 10 11) := by decide

theorem test_decode_arithmetic :
    decode 0b1000101010110100#16 = .ok (.addReg 10 11) ∧ decode 0b1000101010110101#16 = .ok (.subReg 10 11) ∧
    decode 0b1000101010110110#16 = .ok (.shr 10 11) ∧ decode 0b1000101010110111#16 = .ok (.subnReg 10 11) ∧
    decode 0b1000101010111110#16 = .ok (.shl 10 11) := by decide

theorem test_decode_index_and_memory :
    decode 0b1010101010111100#16 = .ok (.ldI 0b101010111100#12) ∧ decode 0b1111101000011110#16 = .ok (.addI 10) ∧
    decode 0b1111101000101001#16 = .ok (.ldF 10) ∧ decode 0b1111101000110011#16 = .ok (.ldB 10) ∧
    decode 0b1111101001010101#16 = .ok (.storeRegs 10) ∧ decode 0b1111101001100101#16 = .ok (.loadRegs 10) := by decide

theorem test_decode_random_and_display :
    decode 0b0000000011100000#16 = .ok .cls ∧ decode 0b1100101011000011#16 = .ok (.rnd 10 0b11000011#8) ∧
    decode 0b1101101010110101#16 = .ok (.drw 10 11 5) := by decide

theorem test_decode_keypad_and_timers :
    decode 0b1110101010011110#16 = .ok (.skp 10) ∧ decode 0b1110101010100001#16 = .ok (.sknp 10) ∧
    decode 0b1111101000000111#16 = .ok (.ldVxDT 10) ∧ decode 0b1111101000001010#16 = .ok (.ldVxK 10) ∧
    decode 0b1111101000010101#16 = .ok (.ldDTVx 10) ∧ decode 0b1111101000011000#16 = .ok (.ldSTVx 10) := by decide

/-- E3, E5, E12, E19: unsupported, with the whole word. -/
theorem test_decode_refuses :
    decode 0x0000 = .error (.unsupportedOpcode 0x0000) ∧ decode 0x01E0 = .error (.unsupportedOpcode 0x01E0) ∧
    decode 0x8ABD = .error (.unsupportedOpcode 0x8ABD) ∧ decode 0xF056 = .error (.unsupportedOpcode 0xF056) := by decide

/-- The table's numbering of bits: bit 0 is the least significant bit of the one word. -/
theorem test_decode_table_word : decodeTableWord 16 0x8AB4 = some (.addReg 10 11) ∧ decodeTableWord 16 0x0000 = none := by
  decide

/-! ## Control transfer -/

/-- C1. -/
theorem test_ret : after .ret (((start []).setPc 0x20A).setStack [0x300, 0x206]) (fun t => (t.pc, t.stack)) =
    some (0x206, [0x300]) := by decide
/-- C2. -/
theorem test_ret_empty : faultOf (exec .ret (start [])) = some .stackUnderflow := by decide
/-- C4. -/
theorem test_jp : after (.jp 0xFFF) (start []) (·.pc) = some 0x0FFF := by decide
/-- C6. -/
theorem test_call : after (.call 0x200) ((start []).setPc 0xFFE) (fun t => (t.pc, t.stack)) = some (0x200, [0x1000]) := by
  decide
/-- C7, C8. -/
theorem test_call_depth :
    (after (.call 0x300) ((start []).setStack (List.replicate 15 0x400)) (·.stack.length)) = some 16 ∧
    faultOf (exec (.call 0x300) ((start []).setStack (List.replicate 16 0x400))) = some .stackOverflow := by decide
/-- C10, C11. -/
theorem test_se_imm : after (.seImm 0 0) (start []) (·.pc) = some 0x204 ∧
    after (.seImm 0 0) (start [(0, 1)]) (·.pc) = some 0x202 := by decide
/-- C9, C14. -/
theorem test_sne_imm : after (.sneImm 0xC 0x11) (start [(0xC, 0x11)]) (·.pc) = some 0x202 ∧
    after (.sneImm 2 0xFF) (start [(2, 0x10)]) (·.pc) = some 0x204 := by decide
/-- C15, C16. -/
theorem test_se_reg : after (.seReg 3 4) (start [(3, 0x7F), (4, 0x7F)]) (·.pc) = some 0x204 ∧
    after (.seReg 3 4) (start [(3, 0x7F), (4, 0x80)]) (·.pc) = some 0x202 := by decide
/-- C18, C19. -/
theorem test_sne_reg : after (.sneReg 6 6) (start [(6, 9)]) (·.pc) = some 0x202 ∧
    after (.sneReg 3 4) (start [(3, 0x7F), (4, 0x80)]) (·.pc) = some 0x204 := by decide
/-- C20: the sum is 0x1002, above the range of a fetch. -/
theorem test_skip_at_top : after (.seImm 0 0) ((start []).setPc 0xFFE) (·.pc) = some 0x1002 := by decide
/-- C22, C23. -/
theorem test_jp_v0 : after (.jpV0 0xFFF) (start [(0, 0xFF)]) (·.pc) = some 0x10FE ∧
    after (.jpV0 0x200) (start [(0, 1), (2, 0x50)]) (·.pc) = some 0x201 := by decide

/-! ## Register and arithmetic -/

/-- A2. -/
theorem test_ld_imm : after (.ldImm 15 0) (start [(15, 1)]) (fun t => (t.reg 15, t.pc)) = some (0, 0x202) := by decide
/-- A4, A5. -/
theorem test_add_imm : after (.addImm 1 0xFF) (start [(1, 1)]) (fun t => (t.reg 1, t.reg 15)) = some (0, 0) ∧
    after (.addImm 15 2) (start [(15, 0xFF)]) (·.reg 15) = some 1 := by decide
/-- A6. -/
theorem test_ld_reg : after (.ldReg 1 2) (start [(1, 0x11), (2, 0x22)]) (fun t => (t.reg 1, t.reg 2)) =
    some (0x22, 0x22) := by decide
/-- A7. -/
theorem test_or : after (.orReg 1 2) (start [(1, 0xF0), (2, 0x3C), (15, 1)]) (fun t => (t.reg 1, t.reg 15)) =
    some (0xFC, 1) := by decide
/-- A8. -/
theorem test_and : after (.andReg 1 2) (start [(1, 0xF0), (2, 0x3C), (15, 1)]) (fun t => (t.reg 1, t.reg 15)) =
    some (0x30, 1) := by decide
/-- A9, A10. -/
theorem test_xor : after (.xorReg 1 2) (start [(1, 0xF0), (2, 0x3C), (15, 1)]) (fun t => (t.reg 1, t.reg 15)) =
    some (0xCC, 1) ∧ after (.xorReg 5 5) (start [(5, 0xA7)]) (·.reg 5) = some 0 := by decide
/-- A12, A13: 255 is no carry, 256 is. -/
theorem test_add_carry : after (.addReg 1 2) (start [(1, 0x80), (2, 0x7F)]) (fun t => (t.reg 1, t.reg 15)) = some (0xFF, 0) ∧
    after (.addReg 1 2) (start [(1, 0x80), (2, 0x80)]) (fun t => (t.reg 1, t.reg 15)) = some (0, 1) := by decide
/-- A16, A18: VF as destination keeps the flag; VF as source is read before it is written. -/
theorem test_add_vf : after (.addReg 15 1) (start [(15, 0xFF), (1, 1)]) (·.reg 15) = some 1 ∧
    after (.addReg 1 15) (start [(1, 0xFF), (15, 1)]) (fun t => (t.reg 1, t.reg 15)) = some (0, 1) := by decide
/-- A20, A21. -/
theorem test_sub : after (.subReg 1 2) (start []) (fun t => (t.reg 1, t.reg 15)) = some (0, 1) ∧
    after (.subReg 1 2) (start [(1, 0x10), (2, 0x20)]) (fun t => (t.reg 1, t.reg 15)) = some (0xF0, 0) := by decide
/-- A24. -/
theorem test_sub_vf : after (.subReg 15 1) (start [(15, 5), (1, 3)]) (·.reg 15) = some 1 := by decide
/-- A27, A29. -/
theorem test_shr : after (.shr 1 2) (start [(1, 0x80), (2, 3)]) (fun t => (t.reg 1, t.reg 15)) = some (0x40, 0) ∧
    after (.shr 15 0) (start [(15, 2)]) (·.reg 15) = some 0 := by decide
/-- A31, A32. -/
theorem test_subn : after (.subnReg 1 2) (start [(1, 0x10), (2, 0x20)]) (fun t => (t.reg 1, t.reg 15)) = some (0x10, 1) ∧
    after (.subnReg 1 2) (start [(1, 2), (2, 1)]) (fun t => (t.reg 1, t.reg 15)) = some (0xFF, 0) := by decide
/-- A34, A36. -/
theorem test_shl : after (.shl 1 0) (start [(1, 0xC1)]) (fun t => (t.reg 1, t.reg 15)) = some (0x82, 1) ∧
    after (.shl 1 2) (start [(1, 0x80), (2, 0x55)]) (fun t => (t.reg 1, t.reg 2, t.reg 15)) = some (0, 0x55, 1) := by decide

/-! ## Index register and memory -/

/-- M1. -/
theorem test_ld_i : after (.ldI 0xFFF) (start [] 0x1234) (·.I) = some 0x0FFF := by decide
/-- M4, M6. -/
theorem test_add_i : after (.addI 2) (start [(2, 0xFF)] 0x0FFF) (fun t => (t.I, t.reg 15)) = some (0x10FE, 0) ∧
    after (.addI 2) (start [(2, 0x20)] 0xFFF0) (·.I) = some 0x0010 := by decide
/-- M9, M10. -/
theorem test_ld_f : after (.ldF 3) (start [(3, 0x0F)]) (·.I) = some 0x004B ∧
    after (.ldF 3) (start [(3, 0x1A)]) (·.I) = some 0x0032 := by decide
/-- M14, M16. -/
theorem test_ld_b :
    after (.ldB 0) (start [(0, 0xFF)] 0x0FFD) (fun t => (t.mem.read 0xFFD, t.mem.read 0xFFE, t.mem.read 0xFFF)) =
      some (2, 5, 5) ∧
    faultOf (exec (.ldB 0) (start [(0, 7)] 0xFFFF)) = some .memoryAddressOutOfRange := by decide
/-- M18, M20. -/
theorem test_store_regs :
    after (.storeRegs 2) (start [(0, 0x11), (1, 0x22), (2, 0x33)] 0x400 [(0x403, 0xEE)])
      (fun t => ([0x400, 0x401, 0x402, 0x403].map t.mem.read, t.I)) = some ([0x11, 0x22, 0x33, 0xEE], 0x400) ∧
    faultOf (exec (.storeRegs 1) (start [(0, 0x5A), (1, 0x5B)] 0xFFF)) = some .memoryAddressOutOfRange := by decide
/-- M25 (the glyph of 0, G1), M24. -/
theorem test_load_regs :
    after (.loadRegs 4) (start []) (fun t => [t.reg 0, t.reg 1, t.reg 2, t.reg 3, t.reg 4]) =
      some [0xF0, 0x90, 0x90, 0x90, 0xF0] ∧
    after (.loadRegs 2) (start [(3, 0x99)] 0x400 [(0x400, 0x11), (0x401, 0x22), (0x402, 0x33)])
      (fun t => ([t.reg 0, t.reg 1, t.reg 2, t.reg 3], t.I)) = some ([0x11, 0x22, 0x33, 0x99], 0x400) := by decide

/-- Writing what an unlisted address reads as removes the entry: equal memories are equal data. -/
theorem test_memory_canonical :
    (start [] 0 [(0x300, 7), (0x200, 5), (0x300, 0)]).mem = [(0x200, 5)] ∧
    (start [] 0 [(0x001, 0x90)]).mem = [] ∧ (start [] 0 [(0x300, 7), (0x200, 5)]).mem.wf = true := by decide

/-! ## Random and display -/

/-- D1. -/
theorem test_rnd : after (.rnd 3 0x0F) ((start [(3, 0xFF)]).setHost { HostSide.reset with rnds := [0xA7, 0x11] })
    (fun t => (t.reg 3, t.host.rnds)) = some (0x07, [0x11]) := by decide
/-- S6, D4. -/
theorem test_cls : after .cls ((start [(15, 1)]).setDisp (dots [(1, 62), (31, 0)])) (fun t => (t.disp, t.reg 15, t.pc)) =
    some (dots [], 1, 0x202) := by decide
/-- D7: one pixel erased, one set. -/
theorem test_drw_collision :
    after (.drw 0 1 1) ((start [(15, 0)] 0x300 [(0x300, 0xC0)]).setDisp (dots [(0, 0)])) (fun t => (t.disp, t.reg 15)) =
      some (dots [(0, 1)], 1) := by decide
/-- D11: columns wrap on the same row. -/
theorem test_drw_columns_wrap :
    after (.drw 0 1 1) (start [(0, 62)] 0x300 [(0x300, 0xFF)]) (·.disp) =
      some (dots [(0, 62), (0, 63), (0, 0), (0, 1), (0, 2), (0, 3), (0, 4), (0, 5)]) := by decide
/-- D12: rows wrap when VWRAP holds. -/
theorem test_drw_rows_wrap :
    (nextOf (drawWith true 0 1 4 (start [(1, 30)] 0x300 [(0x300, 0x80), (0x301, 0x80), (0x302, 0x80), (0x303, 0x80)]))).map
      (·.disp) = some (dots [(30, 0), (31, 0), (0, 0), (1, 0)]) := by decide
/-- D13: and are discarded when it does not. -/
theorem test_drw_rows_clip :
    (nextOf (drawWith false 0 1 4 (start [(1, 30)] 0x300 [(0x300, 0x80), (0x301, 0x80), (0x302, 0x80), (0x303, 0x80)]))).map
      (·.disp) = some (dots [(30, 0), (31, 0)]) := by decide
/-- D15, D17. -/
theorem test_drw_bounds :
    after (.drw 0 0 0) ((start [(15, 1)] 0xFFFF).setDisp (dots [(3, 3)])) (fun t => (t.disp, t.reg 15, t.pc)) =
      some (dots [(3, 3)], 0, 0x202) ∧
    faultOf (exec (.drw 0 1 2) (start [] 0xFFF)) = some .memoryAddressOutOfRange := by decide
/-- D19: the old VF is both coordinates. -/
theorem test_drw_vf : after (.drw 15 15 1) (start [(15, 2)] 0x300 [(0x300, 0x80)]) (fun t => (t.disp, t.reg 15)) =
    some (dots [(2, 2)], 0) := by decide
/-- H15: element 63 is the top right pixel, element 64 the first of the second row. -/
theorem test_snapshot :
    (dots [(0, 0), (0, 63), (1, 0), (31, 63)]).snapshot[63] = true ∧ (dots [(0, 0), (0, 63)]).snapshot[64] = false ∧
    (dots [(31, 63)]).snapshot[2047] = true := by
  simp only [Display.snapshot_getElem]; decide

/-! ## Keypad and timers -/

/-- K1, K4. -/
theorem test_skp : after (.skp 2) ((start [(2, 5)]).setKeys 0x0020) (·.pc) = some 0x204 ∧
    after (.skp 2) ((start [(2, 0x15)]).setKeys 0x0020) (·.pc) = some 0x202 := by decide
/-- K6, K8. -/
theorem test_sknp : after (.sknp 2) ((start [(2, 5)]).setKeys 0x0020) (·.pc) = some 0x202 ∧
    after (.sknp 2) ((start [(2, 0x15)]).setKeys 0x0020) (·.pc) = some 0x204 := by decide
/-- K16. -/
theorem test_ld_vx_dt : after (.ldVxDT 1) ((start []).setDT 0x3C) (fun t => (t.reg 1, t.DT)) = some (0x3C, 0x3C) := by decide
/-- K10: it never completes in the cycle that fetches it. -/
theorem test_ld_vx_k : after (.ldVxK 2) (((start [(2, 0x99)]).setPc 0x20A).setKeys 0x0080) (fun t => (t.reg 2, t.pc, t.run)) =
    some (0x99, 0x20A, .awaitingKey 2) := by decide
/-- K12, K14. -/
theorem test_wait_ends :
    (nextOf (step (waiting 2 0x0080))).map (fun t => (t.reg 2, t.pc, t.run, t.keys)) =
      some (0x07, 0x20C, .running, 0x0080) ∧
    (nextOf (step (waiting 15 0x0001))).map (fun t => (t.reg 15, t.run)) = some (0, .running) := by decide
/-- K17. -/
theorem test_ld_dt_vx : after (.ldDTVx 0) ((start [(0, 3)]).setDT 0x77) (·.DT) = some 3 := by decide
/-- K19. -/
theorem test_ld_st_vx : after (.ldSTVx 4) (start [(4, 2)]) (fun t => (t.ST, t.host.results)) = some (2, []) := by decide

/-! ## Host operations, faults and their order -/

/-- H7, H8, H9. -/
theorem test_tick :
    (tickTimers (((start []).setDT 5).setST 2)).2 = false ∧ (tickTimers (((start []).setDT 4).setST 1)).2 = true ∧
    (tickTimers (((start []).setDT 0xFF).setST 0)).1.DT = 0xFE ∧ (tickTimers (start [])).1.ST = 0 := by decide
/-- H4. -/
theorem test_load : (nextOf (step (asked [.loadProgram [0x12, 0x00]] State.reset))).map
    (fun t => (t.mem, t.pc, t.host.agenda)) = some ([(0x200, 0x12)], 0x200, []) := by decide
/-- R133: a second load is refused. -/
theorem test_load_twice : refusalOf (step (asked [.loadProgram []] ((start []).setPhase .started))) =
    some .loadOutOfOrder := by decide
/-- H5, X1, X5: an empty memory, and a fetch across the end of memory. -/
theorem test_fetch_faults :
    faultOf (step State.reset) = some (.unsupportedOpcode 0x0000) ∧
    faultOf (step ((start []).setPc 0xFFF)) = some .memoryAddressOutOfRange := by decide
/-- X6: decode comes before any use of I. -/
theorem test_decode_before_execute :
    faultOf (step (start [] 0xFFFF [(0x200, 0xF0), (0x201, 0x75)])) = some (.unsupportedOpcode 0xF075) := by decide
/-- X9: no alignment. -/
theorem test_odd_pc :
    (nextOf (step ((start [] 0 [(0x201, 0x6A), (0x202, 0x42)]).setPc 0x201))).map (fun t => (t.reg 10, t.pc)) =
      some (0x42, 0x203) := by decide
/-- H16, with the fault before it: the host is given the fault and skips. -/
theorem test_fault_then_skip :
    ((nextOf (step (asked [.runCycle, .skipInstruction] (start [])))).bind fun t => nextOf (step t)).map
      (fun t => (t.pc, t.host.results)) = some (0x202, [.fault (.unsupportedOpcode 0x0000)]) := by decide
/-- R148: a host that would run another cycle after the fault: the run ends with the fault. -/
theorem test_fault_then_cycle :
    faultOf (step (asked [.runCycle, .runCycle] (start []))) = some (.unsupportedOpcode 0x0000) := by decide
/-- A word placed by `withFetchWord` runs next, from reset and from a pc no fetch reaches. -/
theorem test_with_fetch_word :
    (nextOf (step (State.reset.withFetchWord 16 0x63AB))).map (·.reg 3) = some 0xAB ∧
    (nextOf (step (((start []).setPc 0x10FE).withFetchWord 16 0x63AB))).map (·.reg 3) = some 0xAB := by decide

/-! ## Witnesses: states and operands that meet the hypotheses of each statement, at the ends of their ranges -/

theorem witness_EncodingADecodedWordGivesItBack : decode 0x8AB6 = .ok (.shr 10 11) := by decide

theorem witness_AWordDecodesToTheRowItSelects :
    decode 0xF065 = .ok (.loadRegs 0) ∧
    (⟨0xF0FF, 0xF065⟩ : OpRow) ∈ opcodeTable ∧ (0xFF65 : Word) &&& 0xF0FF = 0xF065 := by decide

theorem witness_IllegalWordsAreTheListedGroups :
    decode 0x0FFF = .error (.unsupportedOpcode 0x0FFF) ∧ (start [] 0 [(0x200, 0x0F), (0x201, 0xFF)]).host.agenda = [] ∧
    (start [] 0 [(0x200, 0x0F), (0x201, 0xFF)]).run = .running ∧
    (start [] 0 [(0x200, 0x0F), (0x201, 0xFF)]).fetchWord = some 0x0FFF := by decide

theorem witness_AStepFetchesDecodesAndExecutes_waiting :
    (waiting 2 0).host.agenda = [] ∧ (waiting 2 0).run = .awaitingKey 2 := by decide

theorem witness_AStepFetchesDecodesAndExecutes_fetch :
    ((start []).setPc 0xFFF).host.agenda = [] ∧ ((start []).setPc 0xFFF).run = .running ∧
    ((start []).setPc 0xFFF).pc.toNat > 0xFFE := by decide

theorem witness_AStepFetchesDecodesAndExecutes_decode :
    ((start [] 0 [(0xFFE, 0x01), (0xFFF, 0x23)]).setPc 0xFFE).pc.toNat ≤ 0xFFE ∧
    (0x0123 : Word).toNat = 256 * (((start [] 0 [(0xFFE, 0x01), (0xFFF, 0x23)]).setPc 0xFFE).mem.read 0xFFE).toNat +
      (((start [] 0 [(0xFFE, 0x01), (0xFFF, 0x23)]).setPc 0xFFE).mem.read 0xFFF).toNat ∧
    decode 0x0123 = .error (.unsupportedOpcode 0x0123) := by decide

theorem witness_AStepFetchesDecodesAndExecutes_execute :
    ((start [] 0 [(0xFFE, 0x22)]).setPc 0xFFE).pc.toNat ≤ 0xFFE ∧
    (0x2200 : Word).toNat = 256 * (((start [] 0 [(0xFFE, 0x22)]).setPc 0xFFE).mem.read 0xFFE).toNat +
      (((start [] 0 [(0xFFE, 0x22)]).setPc 0xFFE).mem.read 0xFFF).toNat ∧
    decode 0x2200 = .ok (.call 0x200) ∧ (nextOf (exec (.call 0x200) ((start [] 0 [(0xFFE, 0x22)]).setPc 0xFFE))).isSome ∧
    faultOf (exec (.call 0x200) (((start [] 0 [(0xFFE, 0x22)]).setPc 0xFFE).setStack (List.replicate 16 2))) =
      some .stackOverflow := by decide

theorem witness_APlannedCycleIsTheSameCycle :
    (start [] 0 [(0x200, 0x63), (0x201, 0xAB)]).host.agenda = [] ∧
    ∃ t, step (start [] 0 [(0x200, 0x63), (0x201, 0xAB)]) = .next t := ⟨rfl, _, rfl⟩

theorem witness_AFaultChangesNothingAndTheHostMaySkip :
    ((start []).setPc 0xFFFE).host.agenda = [] ∧ step ((start []).setPc 0xFFFE) = .fault .memoryAddressOutOfRange :=
  ⟨rfl, rfl⟩

theorem witness_AWordPlacedForFetchRunsNext :
    decodeTableWord 16 0x63AB = some (.ldImm 3 0xAB) ∧
    ∃ t, exec (.ldImm 3 0xAB) (State.reset.withFetchWord 16 0x63AB) = .next t := ⟨by decide, _, rfl⟩

theorem witness_ReturnPopsIntoPc :
    ((start []).setStack [0x300, 0x206]).stack = [0x300] ++ [0x206] ∧ ((start []).setStack [0x206]).stack = [] ++ [0x206] ∧
    (start []).stack = [] := ⟨rfl, rfl, rfl⟩

theorem witness_ReturnAndCallComplete :
    0 < ((start []).setStack [0x206]).stack.length ∧ ((start []).setStack (List.replicate 15 2)).stack.length < 16 ∧
    (start []).stack.length < 16 := by decide

theorem witness_CallPushesTheNextAddress :
    ((start []).setStack (List.replicate 15 2)).stack.length < 16 ∧
    ((start []).setStack (List.replicate 16 2)).stack.length = 16 := by decide

theorem witness_CallThenReturnComesBack : ((start []).setStack (List.replicate 15 2)).stack.length < 16 := by decide

/-- C3: the self-jump at 0x200. -/
theorem witness_ASelfJumpRunsForever :
    ((start [] 0 [(0x200, 0x12)]).setPhase .started).host.agenda = [] ∧
    ((start [] 0 [(0x200, 0x12)]).setPhase .started).host.phase = .started ∧
    ((start [] 0 [(0x200, 0x12)]).setPhase .started).run = .running ∧
    ((start [] 0 [(0x200, 0x12)]).setPhase .started).fetchWord = some 0x1200 ∧
    (0x1200 : Word).toNat = 0x1000 + ((start [] 0 [(0x200, 0x12)]).setPhase .started).pc.toNat := by decide

/-- The hypotheses about registers in the statements of section "Register load, arithmetic, logic, shift", and in
`RandomByteIsMasked`, `TimerInstructionsMoveTheCount`: a destination that is not VF and a register that is neither. -/
theorem witness_register_hypotheses : (0 : RegIdx) ≠ 15 ∧ (14 : RegIdx) ≠ 15 ∧ (1 : RegIdx) ≠ 0 ∧ (1 : RegIdx) ≠ 15 := by
  decide

theorem witness_DecimalDigitsAreStored :
    effectiveAddress (start [(0, 0xFF)] 0xFFD).I 2 ≤ 0xFFF ∧ effectiveAddress (start [(0, 7)] 0xFFE).I 2 > 0xFFF ∧
    (∀ k, k ≤ 2 → (0xFFC : Nat) ≠ effectiveAddress (start [(0, 0xFF)] 0xFFD).I k) := by decide

theorem witness_RegistersAreStored_and_RegistersAreLoaded :
    effectiveAddress (start [] 0xFF0).I (15 : RegIdx).val ≤ 0xFFF ∧
    effectiveAddress (start [] 0xFF1).I (15 : RegIdx).val > 0xFFF ∧ effectiveAddress (start [] 0xFFF).I (0 : RegIdx).val ≤ 0xFFF ∧
    effectiveAddress (start [] 0x1000).I (0 : RegIdx).val > 0xFFF ∧ (2 : RegIdx) ≤ 2 ∧ (2 : RegIdx) < 3 ∧
    (∀ k : RegIdx, k ≤ 15 → (0xFEF : Nat) ≠ effectiveAddress (start [] 0xFF0).I k.val) := by decide

theorem witness_StoredRegistersLoadBack :
    ∃ t, exec (.storeRegs 15) (start [(0, 1), (15, 2)] 0xFF0) = .next t := ⟨_, rfl⟩

theorem witness_AStoreIsSeenByTheNextFetch :
    (∃ t, exec (.storeRegs 1) (start [(0, 0x12), (1, 0x34)] 0x202) = .next t) ∧
    (start [(0, 0x12), (1, 0x34)] 0x202).I = (start [(0, 0x12), (1, 0x34)] 0x202).pc + 2 ∧ 1 ≤ (1 : RegIdx).val ∧
    (start [(0, 0x12), (1, 0x34)] 0x202).pc.toNat ≤ 0xFFC := ⟨⟨_, rfl⟩, by decide, by decide, by decide⟩

theorem witness_CanonicalMemoriesThatReadAlikeAreEqual :
    Memory.wf (Memory.write (Memory.write [] 0x300 7) 0x200 5) = true ∧
    Memory.wf (Memory.write (Memory.write [] 0x200 5) 0x300 7) = true ∧
    (∀ a, a ≤ 0xFFF → Memory.read (Memory.write (Memory.write [] 0x300 7) 0x200 5) a =
      Memory.read (Memory.write (Memory.write [] 0x200 5) 0x300 7) a) := ⟨by decide, by decide, fun _ _ => rfl⟩

/-- The sprite 80 at the top left: it goes over a set pixel, over an empty display, and, the byte being 00, over nothing. -/
theorem witness_DrawFlipsThePixelsOfTheSprite :
    (start [] 0xFFF [(0xFFF, 0x80)]).I.toNat + (1 : Fin 16).val - 1 ≤ 0xFFF ∧ (0 : Fin 16).val = 0 ∧
    Display.pixel ((start [] 0xFFF [(0xFFF, 0x80)]).setDisp (dots [(0, 0)])).disp 0 0 = true ∧
    spriteCovers Config.vwrap ((start [] 0xFFF [(0xFFF, 0x80)]).setDisp (dots [(0, 0)])) 0 1 1 0 0 ∧
    (∀ row col, spriteCovers Config.vwrap (start [] 0xFFF [(0xFFF, 0x80)]) 0 1 1 row col →
      Display.pixel (start [] 0xFFF [(0xFFF, 0x80)]).disp row col = false) ∧
    (2 : Fin 16).val > 0 ∧ (start [] 0xFFF).I.toNat + (2 : Fin 16).val - 1 > 0xFFF := by
  refine ⟨by decide, by decide, by decide, ⟨0, 0, by decide⟩, fun row col _ => ?_, by decide, by decide⟩
  exact Display.pixel_clear row col

theorem witness_DrawingTwiceRestoresTheDisplay :
    (∃ t u, exec (.drw 0 1 1) (start [] 0x300 [(0x300, 0x80)]) = .next t ∧
      t.reg 0 = (start [] 0x300 [(0x300, 0x80)]).reg 0 ∧ t.reg 1 = (start [] 0x300 [(0x300, 0x80)]).reg 1 ∧
      exec (.drw 0 1 1) t = .next u) ∧
    (∃ row col, spriteCovers Config.vwrap (start [] 0x300 [(0x300, 0x80)]) 0 1 1 row col) ∧
    (∀ row col, Display.pixel (start [] 0x300 [(0x300, 0x80)]).disp row col = false) ∧
    (∀ row col, ¬ spriteCovers Config.vwrap (start [] 0x300) 0 1 0 row col) := by
  refine ⟨⟨_, _, rfl, by decide, by decide, rfl⟩, ⟨0, 0, 0, 0, by decide⟩, fun row col => Display.pixel_clear row col, ?_⟩
  rintro row col ⟨r, c, hr, -⟩
  exact absurd hr (Nat.not_lt_zero r)

theorem witness_KeySkipsTestTheLatch :
    (∃ k : Key, (((start [(2, 0x0F)]).setKeys 0x8000).reg 2).toNat = k.val ∧
      ((start [(2, 0x0F)]).setKeys 0x8000).keys.getLsbD k.val = true) ∧
    (∀ k : Key, (((start [(2, 0x0F)]).setKeys 0x7FFF).reg 2).toNat = k.val →
      ((start [(2, 0x0F)]).setKeys 0x7FFF).keys.getLsbD k.val = false) ∧
    (∀ k : Key, (((start [(2, 0x10)]).setKeys 0xFFFF).reg 2).toNat = k.val →
      ((start [(2, 0x10)]).setKeys 0xFFFF).keys.getLsbD k.val = false) := by decide

theorem witness_KeyWaitEndsWithAPressedKey :
    (waiting 2 0).host.agenda = [] ∧ (waiting 2 0).run = .awaitingKey 2 ∧ (waiting 2 0).keys = 0 ∧
    (waiting 2 0x0480).keys ≠ 0 ∧ (waiting 2 0x0480).run = .awaitingKey 2 := by decide

theorem witness_TheKeyWaitHasNoTimeout :
    (waiting 15 0).host.agenda = [] ∧ (waiting 15 0).host.phase = .started ∧ (waiting 15 0).run = .awaitingKey 15 ∧
    (waiting 15 0).keys = 0 := by decide

/-- The invariant of these two states: `witness_EveryStepKeepsTheInvariant` for the waiting one. -/
theorem witness_TheWaitIsEnteredAndLeftAsDescribed :
    (waiting 2 0).host.agenda = [] ∧ (waiting 2 0).keys = 0 ∧
    (start [] 0 [(0x200, 0xF2), (0x201, 0x0A)]).Inv ∧
    (nextOf (step (start [] 0 [(0x200, 0xF2), (0x201, 0x0A)]))).map (·.run) = some (.awaitingKey 2) ∧
    (nextOf (step (waiting 2 0x0080))).map (·.run) = some .running ∧
    (nextOf (step (waiting 2 0))).map (·.run) = some (.awaitingKey 2) :=
  ⟨rfl, rfl, ⟨by decide, by decide, fun t h => (by cases h)⟩, by decide, by decide, by decide⟩

theorem witness_ATickDecrementsBothTimers :
    (asked [.tickTimers, .runCycle] ((waiting 2 0).setST 1)).host.agenda = .tickTimers :: [.runCycle] := rfl

/-- H10 (with three ticks), and the shortest count. -/
theorem witness_ASoundTimerBeepsOnceWithItsLastTick :
    (asked (List.replicate 3 .tickTimers) ((start []).setST 3)).ST.toNat = 2 + 1 ∧
    (asked (List.replicate 3 .tickTimers) ((start []).setST 3)).host.agenda = List.replicate (2 + 1) .tickTimers ++ [] ∧
    (asked [.tickTimers] ((start []).setST 1)).ST.toNat = 0 + 1 := by decide

theorem witness_SetKeysReplacesTheLatch :
    (asked [.setKeys 0x000C] ((start []).setKeys 0x0006)).host.agenda = .setKeys 0x000C :: [] := rfl

theorem witness_TheSnapshotIsTheDisplay :
    (asked [.displaySnapshot] (start [])).host.agenda = .displaySnapshot :: [] ∧
    (2047 : Fin 2048).val = (31 : Fin 32).val * 64 + (63 : Fin 64).val := ⟨rfl, rfl⟩

theorem witness_LoadProgramCopiesTheBytes :
    (asked [.loadProgram [0x12, 0x00]] State.reset).host.agenda = .loadProgram [0x12, 0x00] :: [] ∧
    State.reset.host.phase = .fresh ∧ State.reset.run = .running ∧
    (List.replicate 3584 (0x01 : Byte)).length ≤ 3584 ∧ (List.replicate 3585 (0x01 : Byte)).length > 3584 ∧
    ((start []).setPhase .started).host.phase ≠ .fresh ∧ (waiting 2 0).run ≠ .running := by
  simp only [List.length_replicate]; decide

theorem witness_SkipIsOnlyForAfterAFault :
    (asked [.skipInstruction] (((start []).setPc 0xFFFE).setPhase .faulted)).host.agenda = .skipInstruction :: [] ∧
    (((start []).setPc 0xFFFE).setPhase .faulted).host.phase = .faulted ∧ (start []).host.phase ≠ .faulted := by decide

/-- Both sides of the table of faults, at its bounds: I + X, I + 2 and I + N - 1 at 0xFFF and at 0x1000. -/
theorem witness_InstructionsFaultExactlyAsTabled :
    faultOf (exec (.loadRegs 15) (start [] 0xFF1)) = some .memoryAddressOutOfRange ∧
    faultOf (exec (.loadRegs 15) (start [] 0xFF0)) = none ∧
    faultOf (exec (.ldB 0) (start [] 0xFFE)) = some .memoryAddressOutOfRange ∧ faultOf (exec (.ldB 0) (start [] 0xFFD)) = none ∧
    faultOf (exec (.drw 0 0 15) (start [] 0xFF2)) = some .memoryAddressOutOfRange ∧
    faultOf (exec (.drw 0 0 0) (start [] 0xFFFF)) = none := by decide

theorem witness_ACycleGoesOnOrFaults : (start []).host.agenda = [] := rfl

/-- For `EveryInstructionMovesPcAsTabled`, `EachFieldChangesOnlyByItsInstructions`, `RegistersChangeOnlyAsDestinationOrFlag`:
an instruction that goes on, and registers, memory and I that change. -/
theorem witness_exec_goes_on :
    (∃ t, exec (.addReg 1 2) (start [(1, 0xFF), (2, 1)]) = .next t ∧ t.reg 1 ≠ (start [(1, 0xFF), (2, 1)]).reg 1 ∧
      t.reg 15 ≠ (start [(1, 0xFF), (2, 1)]).reg 15 ∧ writesFlag (.addReg 1 2) = true) ∧
    (∃ t, exec (.storeRegs 0) (start [(0, 9)] 0xFFF) = .next t ∧ t.mem.read 0xFFF ≠ (start [(0, 9)] 0xFFF).mem.read 0xFFF) ∧
    (∃ t, exec (.ldI 0xFFF) (start []) = .next t ∧ t.I ≠ (start []).I) :=
  ⟨⟨_, rfl, by decide, by decide, rfl⟩, ⟨_, rfl, by decide⟩, _, rfl, by decide⟩

theorem witness_NoInstructionReadsTheSoundTimer :
    (∀ x, Instr.ldDTVx 0 ≠ .ldSTVx x) ∧ (∃ t, exec (.ldDTVx 0) (start [(0, 3)]) = .next t) ∧ (∀ x, Instr.ret ≠ .ldSTVx x) ∧
    exec .ret (start []) = .fault .stackUnderflow := ⟨by simp, ⟨_, rfl⟩, by simp, rfl⟩

/-- For `KeysAndTimersChangeOnlyAsDescribed`: a step that changes KEYS, and one that changes each timer in each way. -/
theorem witness_KeysAndTimersChangeOnlyAsDescribed :
    (nextOf (step (asked [.setKeys 5] (start [])))).map (·.keys) = some 5 ∧
    (nextOf (step (asked [.tickTimers] (((start []).setDT 9).setST 9)))).map (fun t => (t.DT, t.ST)) = some (8, 8) ∧
    (nextOf (step (start [(0, 7)] 0 [(0x200, 0xF0), (0x201, 0x15)]))).map (·.DT) = some 7 ∧
    (nextOf (step (start [(0, 7)] 0 [(0x200, 0xF0), (0x201, 0x18)]))).map (·.ST) = some 7 := by decide

/-- For `MemoryAndDisplayChangeOnlyAsDescribed`: a step that changes memory in each way, and one that changes the display. -/
theorem witness_MemoryAndDisplayChangeOnlyAsDescribed :
    (nextOf (step (start [(0, 7)] 0xFFF [(0x200, 0xF0), (0x201, 0x55)]))).map (·.mem.read 0xFFF) = some 7 ∧
    (nextOf (step (start [(0, 7)] 0xFFD [(0x200, 0xF0), (0x201, 0x33)]))).map (·.mem.read 0xFFF) = some 7 ∧
    (nextOf (step (asked [.loadProgram [1]] (start [])))).map (·.mem.read 0x200) = some 1 ∧
    (nextOf (step (start [] 0x200 [(0x200, 0xD0), (0x201, 0x11)]))).map (fun t => Display.pixel t.disp 0 0) = some true := by
  decide

/-- Another font: a table that is the default but for its last byte leaves one entry in memory. -/
theorem test_another_font :
    (State.resetWith (defaultFont.set 79 0x55)).mem = [(0x04F, 0x55)] ∧
    (State.resetWith (defaultFont.set 79 0x55)).mem.read 0x04B = 0xF0 := by
  decide

/-- The invariants hold of a state in the middle of a run, and it steps. -/
theorem witness_EveryStepKeepsTheInvariant :
    (waiting 2 0x0080).Inv ∧ ∃ t, step (waiting 2 0x0080) = .next t := by
  refine ⟨⟨by decide, by decide, fun t h => ?_⟩, _, rfl⟩
  cases h
  exact ⟨rfl, 0xF20A, by decide, by decide⟩

theorem witness_EveryStepButSkipKeepsPcInBounds :
    ((start [] 0 [(0xFFE, 0x22)]).setPc 0xFFE).PcBound ∧ (∀ ops, ((start [] 0 [(0xFFE, 0x22)]).setPc 0xFFE).host.agenda ≠
      .skipInstruction :: ops) ∧ ∃ t, step ((start [] 0 [(0xFFE, 0x22)]).setPc 0xFFE) = .next t ∧ t.stack = [0x1000] := by
  refine ⟨⟨by decide, fun a h => (by cases h), fun t h => (by cases h)⟩, fun ops h => (by cases h), _, rfl, rfl⟩

end Sys2Proof.Tests
end

section
/-! PROOFS. Reset with any font table (spec/00_scope.md R4; spec/10_state.md R23, R26). -/

namespace Sys2Proof.Machine

@[simp] theorem State.reset_pc : State.reset.pc = 0x0200 := rfl
@[simp] theorem State.reset_stack : State.reset.stack = [] := rfl
@[simp] theorem State.reset_run : State.reset.run = .running := rfl

/-- FONT is a table of 80 bytes, so below 0x050 memory after reset reads as the table. -/
theorem State.resetWith_read_font (glyphs : Config.Font) (a : Nat) (h : a < 80) :
    (State.resetWith glyphs).mem.read a = glyphs[a] := by
  have hsize : a < Config.fontSize := h
  rw [State.resetWith_mem, Memory.read_ofFont, dif_pos hsize]

theorem State.resetWith_read_above_font (glyphs : Config.Font) {a : Nat} (h : 0x050 ≤ a) :
    (State.resetWith glyphs).mem.read a = 0x00 := by
  have hsize : ¬ a < Config.fontSize := Nat.not_lt.mpr h
  rw [State.resetWith_mem, Memory.read_ofFont, dif_neg hsize]

/-- FONT reaches memory only. -/
theorem State.resetWith_frame (glyphs : Config.Font) :
    State.resetWith glyphs = { State.reset with mem := (State.resetWith glyphs).mem } := rfl

/-- No key is awaited after reset, so the clause about a wait is void. -/
theorem State.resetWith_inv (glyphs : Config.Font) : (State.resetWith glyphs).Inv where
  memory := Memory.ofFont_wf glyphs
  stack := by simp
  waiting t h := by simp at h

theorem State.resetWith_pcBound (glyphs : Config.Font) : (State.resetWith glyphs).PcBound where
  pc := by simp
  entries a h := by simp at h
  waiting t h := by simp at h

/-- Settles O59: what memory reads as comes from the reads of `Memory.ofFont`, and the invariants from its canonical form and
the values of `State.reset`. -/
theorem resetTakesAnyFont : Obligations.ResetTakesAnyFont := by
  unfold Obligations.ResetTakesAnyFont
  refine ⟨State.resetWith_default, fun glyphs => ⟨?_, ?_, ?_, ?_, ?_⟩⟩
  · exact State.resetWith_read_font glyphs
  · intro a hlow _
    exact State.resetWith_read_above_font glyphs hlow
  · exact State.resetWith_frame glyphs
  · exact State.resetWith_inv glyphs
  · exact State.resetWith_pcBound glyphs

end Sys2Proof.Machine
end

section
/-! PROOFS. What an instruction that goes on leaves in memory, the stack and the run state: if `exec` answers a next state,
then one of these cases holds. -/

namespace Sys2Proof.Machine

theorem execLdB_next {x : RegIdx} {s t : State} (h : execLdB x s = .next t) :
    rangeInMemory s.I 3 = true ∧
      t = (s.setMem (s.mem.writeBytes (effectiveAddress s.I 0) (bcdDigits (s.reg x)))).advance := by
  obtain ⟨hr, hk⟩ := withRange_next h
  cases hk; exact ⟨hr, rfl⟩

theorem execStoreRegs_next {x : RegIdx} {s t : State} (h : execStoreRegs x s = .next t) :
    rangeInMemory s.I (x.val + 1) = true ∧
      t = (s.setMem (s.mem.writeBytes (effectiveAddress s.I 0) (s.regRange x))).advance := by
  obtain ⟨hr, hk⟩ := withRange_next h
  cases hk; exact ⟨hr, rfl⟩

theorem execLoadRegs_next {x : RegIdx} {s t : State} (h : execLoadRegs x s = .next t) :
    rangeInMemory s.I (x.val + 1) = true ∧ t = (s.loadRegRange x).advance := by
  obtain ⟨hr, hk⟩ := withRange_next h
  cases hk; exact ⟨hr, rfl⟩

/-- What `drawn` holds, `drawSprite_spec` says. -/
theorem execDrw_next {x y : RegIdx} {n : Fin 16} {s t : State} (h : execDrw x y n s = .next t) :
    rangeInMemory s.I n.val = true ∧ ∃ drawn,
      drawn = drawSprite Config.vwrap s.mem (effectiveAddress s.I 0) (spriteColumn (s.reg x)) (spriteRow (s.reg y)) n.val
        s.disp ∧ t = ((s.setDisp drawn.1).setFlag drawn.2).advance := by
  obtain ⟨hr, hk⟩ := withRange_next h
  cases hk; exact ⟨hr, _, rfl, rfl⟩

/-- Only FX33 and FX55 touch memory, and their transfer lies in it. -/
theorem exec_mem_cases {i : Instr} {s t : State} (h : exec i s = .next t) :
    t.mem = s.mem ∨
    (∃ x, i = .ldB x ∧ s.I.toNat + 3 ≤ 0x1000 ∧ t.mem = s.mem.writeBytes s.I.toNat (bcdDigits (s.reg x))) ∨
    (∃ x : RegIdx, i = .storeRegs x ∧ s.I.toNat + (x.val + 1) ≤ 0x1000 ∧
      t.mem = s.mem.writeBytes s.I.toNat (s.regRange x)) := by
  cases i with
  | ldB x =>
    obtain ⟨hr, rfl⟩ := execLdB_next h
    have := rangeInMemory_eq_true.mp hr
    exact .inr (.inl ⟨x, rfl, by omega, rfl⟩)
  | storeRegs x =>
    obtain ⟨hr, rfl⟩ := execStoreRegs_next h
    have := rangeInMemory_eq_true.mp hr
    exact .inr (.inr ⟨x, rfl, by omega, rfl⟩)
  | loadRegs x => obtain ⟨-, rfl⟩ := execLoadRegs_next h; exact .inl rfl
  | drw x y n => obtain ⟨-, drawn, -, rfl⟩ := execDrw_next h; exact .inl rfl
  | ret => obtain ⟨l, a, -, rfl⟩ := popToPc_next h; exact .inl rfl
  | call nnn => obtain ⟨-, rfl⟩ := callTo_next h; exact .inl rfl
  | rnd x kk => cases h; exact .inl s.drawRnd_mem
  | _ => cases h; exact .inl rfl

/-- Only RET pops and only CALL pushes, and CALL only where there is room. -/
theorem exec_stack_cases {i : Instr} {s t : State} (h : exec i s = .next t) :
    t.stack = s.stack ∨ (i = .ret ∧ s.stack = t.stack ++ [t.pc]) ∨
    (∃ nnn, i = .call nnn ∧ s.stack.length < Config.stackDepth ∧ t.stack = s.stack ++ [s.pc + 2]) := by
  cases i with
  | ret => obtain ⟨l, a, hs, rfl⟩ := popToPc_next h; exact .inr (.inl ⟨rfl, hs⟩)
  | call nnn => obtain ⟨hroom, rfl⟩ := callTo_next h; exact .inr (.inr ⟨nnn, rfl, hroom, rfl⟩)
  | ldB x => obtain ⟨-, rfl⟩ := execLdB_next h; exact .inl rfl
  | storeRegs x => obtain ⟨-, rfl⟩ := execStoreRegs_next h; exact .inl rfl
  | loadRegs x => obtain ⟨-, rfl⟩ := execLoadRegs_next h; exact .inl rfl
  | drw x y n => obtain ⟨-, drawn, -, rfl⟩ := execDrw_next h; exact .inl rfl
  | rnd x kk => cases h; exact .inl s.drawRnd_stack
  | _ => cases h; exact .inl rfl

/-- Only FX0A changes the run state, and it changes nothing else. -/
theorem exec_run_cases {i : Instr} {s t : State} (h : exec i s = .next t) :
    t.run = s.run ∨ ∃ x, i = .ldVxK x ∧ t = s.setRun (.awaitingKey x) := by
  cases i with
  | ldVxK x => cases h; exact .inr ⟨x, rfl, rfl⟩
  | ret => obtain ⟨l, a, -, rfl⟩ := popToPc_next h; exact .inl rfl
  | call nnn => obtain ⟨-, rfl⟩ := callTo_next h; exact .inl rfl
  | ldB x => obtain ⟨-, rfl⟩ := execLdB_next h; exact .inl rfl
  | storeRegs x => obtain ⟨-, rfl⟩ := execStoreRegs_next h; exact .inl rfl
  | loadRegs x => obtain ⟨-, rfl⟩ := execLoadRegs_next h; exact .inl rfl
  | drw x y n => obtain ⟨-, drawn, -, rfl⟩ := execDrw_next h; exact .inl rfl
  | rnd x kk => cases h; exact .inl s.drawRnd_run
  | _ => cases h; exact .inl rfl

end Sys2Proof.Machine
end

section
/-! PROOFS. Every step keeps the invariant (spec/10_state.md R14, R15, R27). -/

namespace Sys2Proof.Machine

theorem exec_keeps_wf {i : Instr} {s t : State} (h : exec i s = .next t) (hm : s.mem.wf = true) : t.mem.wf = true := by
  obtain heq | ⟨x, -, hr, heq⟩ | ⟨x, -, hr, heq⟩ := exec_mem_cases h <;> rw [heq]
  · exact hm
  · exact Memory.writeBytes_wf hr hm
  · exact Memory.writeBytes_wf (by simpa using hr) hm

theorem exec_keeps_stack_bound {i : Instr} {s t : State} (h : exec i s = .next t)
    (hs : s.stack.length ≤ Config.stackDepth) : t.stack.length ≤ Config.stackDepth := by
  obtain heq | ⟨-, heq⟩ | ⟨nnn, -, hroom, heq⟩ := exec_stack_cases h
  · rwa [heq]
  · rw [heq, List.length_append] at hs; exact Nat.le_of_add_right_le hs
  · rw [heq, List.length_append]; exact hroom

theorem fetchWord_congr {s t : State} (hpc : t.pc = s.pc) (hmem : t.mem = s.mem) : t.fetchWord = s.fetchWord := by
  simp only [State.fetchWord, hpc, hmem]

/-- Only a running machine faults in a cycle: the second half of FX0A always goes on. -/
theorem running_of_runCycle_fault {s : State} {f : Fault} (h : runCycle s = .fault f) : s.run = .running := by
  cases hr : s.run with
  | running => rfl
  | awaitingKey t =>
    obtain ⟨u, hu⟩ := completeWait_exists_next t s
    rw [runCycle_of_waiting hr, hu] at h
    cases h

/-- In a running machine the clause about a wait is void. -/
theorem State.Inv.of_running {s : State} (hm : s.mem.wf = true) (hs : s.stack.length ≤ Config.stackDepth)
    (hr : s.run = .running) : s.Inv where
  memory := hm
  stack := hs
  waiting t ht := by rw [hr] at ht; cases ht

/-- The invariant reads memory, stack, pc, run state and phase only, and of the phase only that the history has begun. -/
theorem State.Inv.of_same {s t : State} (hi : s.Inv) (hmem : t.mem = s.mem) (hstack : t.stack = s.stack)
    (hpc : t.pc = s.pc) (hrun : t.run = s.run) (hphase : s.host.phase = .started → t.host.phase = .started) : t.Inv where
  memory := hmem ▸ hi.memory
  stack := hstack ▸ hi.stack
  waiting r hr := by
    obtain ⟨hst, hfetch⟩ := hi.waiting r (hrun ▸ hr)
    rw [fetchWord_congr hpc hmem]
    exact ⟨hphase hst, hfetch⟩

theorem State.Inv.setAgenda {s : State} (hi : s.Inv) (ops : List HostOp) : (s.setAgenda ops).Inv :=
  hi.of_same rfl rfl rfl rfl id

theorem completeWait_keeps_inv {r : RegIdx} {s t : State} (hi : s.Inv) (h : completeWait r s = .next t) :
    (t.setPhase .started).Inv := by
  obtain ⟨-, rfl⟩ | ⟨k, -, rfl⟩ := completeWait_next h
  · exact hi.of_same rfl rfl rfl rfl fun _ => rfl
  · exact .of_running hi.memory hi.stack rfl

/-- The wait that FX0A enters is at the very word that was fetched, since FX0A moves neither pc nor memory. -/
theorem exec_keeps_inv {s t : State} {w : Word} {i : Instr} (hi : s.Inv) (hr : s.run = .running)
    (hw : s.fetchWord = some w) (hd : decode w = .ok i) (h : exec i s = .next t) : (t.setPhase .started).Inv := by
  have hm := exec_keeps_wf h hi.memory
  have hs := exec_keeps_stack_bound h hi.stack
  obtain hrun | ⟨x, rfl, rfl⟩ := exec_run_cases h
  · exact .of_running hm hs (hrun.trans hr)
  · refine ⟨hm, hs, fun r hwait => ?_⟩
    cases hwait
    exact ⟨rfl, w, hw, hd⟩

theorem performCycle_keeps_inv {s t : State} (hi : s.Inv) (h : performCycle s = .next t) : t.Inv := by
  obtain ⟨u, hu, rfl⟩ | ⟨f, hf, -, rfl⟩ := performCycle_next h
  · obtain ⟨r, -, hwait⟩ | ⟨hr, w, i, hw, hd, hexec⟩ := runCycle_next hu
    · exact completeWait_keeps_inv hi hwait
    · exact exec_keeps_inv hi hr hw hd hexec
  · have hr : s.run = .running := running_of_runCycle_fault hf
    exact .of_running hi.memory hi.stack hr

theorem performLoad_keeps_inv {bytes : List Byte} {s t : State} (hi : s.Inv) (h : performLoad bytes s = .next t) :
    t.Inv := by
  obtain ⟨-, hr, hlen, rfl⟩ := performLoad_next h
  have hfits : Config.progBase + bytes.length ≤ Config.maxAddr + 1 := Nat.add_le_add_left hlen Config.progBase
  exact .of_running (Memory.writeBytes_wf hfits hi.memory) hi.stack hr

/-- `skip_instruction` moves pc, but no key is awaited directly after a fault. -/
theorem performSkip_keeps_inv {s t : State} (hi : s.Inv) (h : performSkip s = .next t) : t.Inv := by
  obtain ⟨hfaulted, rfl⟩ := performSkip_next h
  refine ⟨hi.memory, hi.stack, fun r hwait => ?_⟩
  obtain ⟨hstarted, -⟩ := hi.waiting r hwait
  rw [hfaulted] at hstarted
  cases hstarted

/-- `settle` keeps the invariant: a history that has begun stays begun. -/
theorem State.Inv.settle {s : State} (hi : s.Inv) : s.settle.Inv :=
  hi.of_same rfl rfl rfl rfl fun hst => by rw [State.settle_host_phase, hst]; rfl

/-- Settles O56: by the operation that the step is; each keeps the invariant by its own lemma, and the three that move neither
memory, stack, pc nor run state keep it trivially. -/
theorem everyStepKeepsTheInvariant : Obligations.EveryStepKeepsTheInvariant := by
  unfold Obligations.EveryStepKeepsTheInvariant
  intro s t hi h
  obtain ⟨s', hc, ⟨-, rfl⟩ | ⟨ops, -, rfl⟩⟩ | ⟨bytes, ops, -, hl⟩ | ⟨ops, -, rfl⟩ | ⟨pressed, ops, -, rfl⟩ |
    ⟨ops, -, rfl⟩ | ⟨ops, -, hk⟩ := step_next h
  · exact performCycle_keeps_inv hi hc
  · exact performCycle_keeps_inv (hi.setAgenda ops) hc
  · exact performLoad_keeps_inv (hi.setAgenda ops) hl
  · refine State.Inv.settle ?_
    exact hi.of_same rfl rfl rfl rfl id
  · refine State.Inv.settle ?_
    exact hi.of_same rfl rfl rfl rfl id
  · refine State.Inv.settle ?_
    exact hi.of_same rfl rfl rfl rfl id
  · exact performSkip_keeps_inv (hi.setAgenda ops) hk

end Sys2Proof.Machine
end

section
/-! PROOFS. The new pc of an instruction (the table of spec/10_state.md section 4). -/

namespace Sys2Proof.Machine

theorem zext12_eq_ofNat (nnn : Imm12) : zext12 nnn = BitVec.ofNat 16 nnn.toNat := by
  apply BitVec.eq_of_toNat_eq
  rw [zext12_toNat, BitVec.toNat_ofNat, Nat.mod_eq_of_lt (by omega)]

theorem offsetTarget_eq_ofNat (v : Byte) (nnn : Imm12) :
    offsetTarget v nnn = BitVec.ofNat 16 (v.toNat + nnn.toNat) := by
  apply BitVec.eq_of_toNat_eq
  rw [offsetTarget_toNat, BitVec.toNat_ofNat, Nat.mod_eq_of_lt (by omega)]

/-- The latch has 16 bits, so a value above 0x0F selects none of them (spec/44_keypad_timers.md R120). -/
theorem isPressed_eq_keyPressed (keys : Word) (v : Byte) : isPressed keys v = keyPressed keys v := by
  rw [Bool.eq_iff_iff]
  simp only [isPressed, keyPressed, List.any_eq_true, Bool.and_eq_true, beq_iff_eq]
  constructor
  · rintro ⟨k, -, hv, hk⟩
    rwa [hv]
  · intro hk
    exact ⟨⟨v.toNat, BitVec.lt_of_getLsbD hk⟩, List.mem_finRange _, rfl, hk⟩

/-- Settles O48: by the instruction; the jumps and skips in the table's own words, and the last entry of the stack for RET. -/
theorem everyInstructionMovesPcAsTabled : Obligations.EveryInstructionMovesPcAsTabled := by
  unfold Obligations.EveryInstructionMovesPcAsTabled
  intro i s t h
  cases i with
  | jp nnn => cases h; exact zext12_eq_ofNat nnn
  | call nnn => obtain ⟨-, rfl⟩ := callTo_next h; exact zext12_eq_ofNat nnn
  | jpV0 nnn => cases h; exact offsetTarget_eq_ofNat (s.reg 0) nnn
  | ret => obtain ⟨l, a, hs, rfl⟩ := popToPc_next h; simp [tabledPc, hs]
  | seImm x kk => cases h; simp [tabledPc]
  | sneImm x kk => cases h; simp [tabledPc]
  | seReg x y => cases h; simp [tabledPc]
  | sneReg x y => cases h; simp [tabledPc]
  | skp x => cases h; simp [tabledPc, isPressed_eq_keyPressed]
  | sknp x => cases h; by_cases hk : keyPressed s.keys (s.reg x) = true <;> simp [tabledPc, isPressed_eq_keyPressed, hk]
  | ldB x => obtain ⟨-, rfl⟩ := execLdB_next h; rfl
  | storeRegs x => obtain ⟨-, rfl⟩ := execStoreRegs_next h; rfl
  | loadRegs x => obtain ⟨-, rfl⟩ := execLoadRegs_next h; rfl
  | drw x y n => obtain ⟨-, drawn, -, rfl⟩ := execDrw_next h; rfl
  | rnd x kk => cases h; simp [tabledPc]
  | _ => cases h; rfl

end Sys2Proof.Machine
end

section
/-! PROOFS. Which registers an instruction changes (spec/10_state.md R10, R12). -/

namespace Sys2Proof.Machine

theorem State.eq_of_setReg_reg_ne {s : State} {x r : RegIdx} {v : Byte} (h : (s.setReg x v).reg r ≠ s.reg r) : r = x := by
  by_contra hne
  exact h (s.setReg_reg_ne hne v)

theorem State.eq_vf_of_setFlag_reg_ne {s : State} {r : RegIdx} {b : Bool} (h : (s.setFlag b).reg r ≠ s.reg r) : r = vf :=
  State.eq_of_setReg_reg_ne h

theorem State.eq_or_eq_vf_of_setRegFlag_reg_ne {s : State} {x r : RegIdx} {v : Byte} {b : Bool}
    (h : (s.setRegFlag x v b).reg r ≠ s.reg r) : r = x ∨ r = vf := by
  by_contra hne
  obtain ⟨hx, hvf⟩ := not_or.mp hne
  exact h (by rw [State.setRegFlag_reg, if_neg hvf, if_neg hx])

theorem State.le_of_loadRegRange_reg_ne {s : State} {x r : RegIdx} (h : (s.loadRegRange x).reg r ≠ s.reg r) : r ≤ x := by
  by_contra hle
  exact h (by rw [State.loadRegRange_reg]; exact if_neg hle)

/-- The five instructions that end in `setRegFlag` change their destination and VF. -/
theorem destination_or_flag_of_setRegFlag {i : Instr} {s : State} {x r : RegIdx} {v : Byte} {b : Bool}
    (hdest : namesDestination i r = (r == x)) (hflag : writesFlag i = true)
    (h : (s.setRegFlag x v b).reg r ≠ s.reg r) : namesDestination i r = true ∨ (r = 15 ∧ writesFlag i = true) := by
  obtain hx | hvf := State.eq_or_eq_vf_of_setRegFlag_reg_ne h
  · exact .inl (hdest.trans (beq_iff_eq.mpr hx))
  · exact .inr ⟨hvf, hflag⟩

/-- A register that an instruction changes is a named destination, or VF and a flag. -/
theorem exec_reg_changed {i : Instr} {s t : State} (h : exec i s = .next t) {r : RegIdx} (hne : t.reg r ≠ s.reg r) :
    namesDestination i r = true ∨ (r = 15 ∧ writesFlag i = true) := by
  cases i with
  | ldImm | addImm | ldReg | orReg | andReg | xorReg | ldVxDT =>
    cases h; exact .inl (beq_iff_eq.mpr (State.eq_of_setReg_reg_ne hne))
  | rnd x kk =>
    cases h
    rw [State.advance_reg, ← s.drawRnd_reg r] at hne
    exact .inl (beq_iff_eq.mpr (State.eq_of_setReg_reg_ne hne))
  | addReg | subReg | shr | subnReg | shl => cases h; exact destination_or_flag_of_setRegFlag rfl rfl hne
  | drw x y n =>
    obtain ⟨-, drawn, -, rfl⟩ := execDrw_next h
    exact .inr ⟨State.eq_vf_of_setFlag_reg_ne (s := s.setDisp drawn.1) hne, rfl⟩
  | loadRegs x =>
    obtain ⟨-, rfl⟩ := execLoadRegs_next h
    exact .inl (decide_eq_true (State.le_of_loadRegRange_reg_ne hne))
  | ret => obtain ⟨l, a, -, rfl⟩ := popToPc_next h; exact absurd rfl hne
  | call nnn => obtain ⟨-, rfl⟩ := callTo_next h; exact absurd rfl hne
  | ldB x => obtain ⟨-, rfl⟩ := execLdB_next h; exact absurd rfl hne
  | storeRegs x => obtain ⟨-, rfl⟩ := execStoreRegs_next h; exact absurd rfl hne
  | _ => cases h; exact absurd rfl hne

@[simp] theorem State.setFlag_reg_vf (s : State) (b : Bool) : (s.setFlag b).reg vf = flagByte b := by
  simp [State.setFlag_reg]

/-- An instruction that writes the flag leaves the byte of a flag in VF, whatever its destination. -/
theorem exec_flag_written {i : Instr} {s t : State} (h : exec i s = .next t) (hflag : writesFlag i = true) :
    ∃ b, t.reg vf = flagByte b := by
  cases i with
  | addReg | subReg | shr | subnReg | shl => cases h; exact ⟨_, State.setFlag_reg_vf _ _⟩
  | drw x y n => obtain ⟨-, drawn, -, rfl⟩ := execDrw_next h; exact ⟨drawn.2, State.setFlag_reg_vf _ _⟩
  | _ => cases hflag

/-- Settles O50: the destinations by the instruction, and the flag because a flag's byte is 0x00 or 0x01. -/
theorem registersChangeOnlyAsDestinationOrFlag : Obligations.RegistersChangeOnlyAsDestinationOrFlag := by
  unfold Obligations.RegistersChangeOnlyAsDestinationOrFlag
  intro i s t h
  refine ⟨fun r hne => exec_reg_changed h hne, fun hflag => ?_⟩
  obtain ⟨b, hb⟩ := exec_flag_written h hflag
  rw [hb]
  exact flagByte_cases b

end Sys2Proof.Machine
end

section
/-! PROOFS. No instruction reads the sound timer (spec/10_state.md R18). -/

namespace Sys2Proof.Machine

/-- A result with the sound timer of its state replaced by `v`. -/
def withSTOf (v : Byte) : Result → Result
  | .next t => .next (t.setST v)
  | .fault f => .fault f
  | .refused r => .refused r

theorem withRange_setST {s : State} {v : Byte} {n : Nat} {k k' : Result} (hk : k' = withSTOf v k) :
    (s.setST v).withRange n k' = withSTOf v (s.withRange n k) := by
  subst hk
  cases hr : rangeInMemory s.I n
  · rw [withRange_of_outside hr, withRange_of_outside (s := s.setST v) hr]; rfl
  · rw [withRange_of_inMemory hr, withRange_of_inMemory (s := s.setST v) hr]

theorem popToPc_setST (s : State) (v : Byte) : (s.setST v).popToPc = withSTOf v s.popToPc := by
  simp only [State.popToPc, State.setST_stack]
  cases s.stack.getLast? <;> rfl

theorem callTo_setST (s : State) (v : Byte) (a : Word) : (s.setST v).callTo a = withSTOf v (s.callTo a) := by
  obtain hs | hs := Nat.lt_or_ge s.stack.length Config.stackDepth
  · rw [callTo_of_room hs, callTo_of_room (s := s.setST v) hs]; rfl
  · rw [callTo_of_full hs, callTo_of_full (s := s.setST v) hs]; rfl

theorem drawRnd_setST (s : State) (v : Byte) : (s.setST v).drawRnd = (s.drawRnd.1, s.drawRnd.2.setST v) := by
  simp only [State.drawRnd, State.setST_host]
  cases s.host.rnds <;> rfl

/-- Replacing the sound timer before an instruction other than FX18 is replacing it after. -/
theorem exec_setST {i : Instr} (s : State) (v : Byte) (hi : ∀ x, i ≠ .ldSTVx x) :
    exec i (s.setST v) = withSTOf v (exec i s) := by
  cases i with
  | ldSTVx x => exact absurd rfl (hi x)
  | ret => exact popToPc_setST s v
  | call nnn => exact callTo_setST s v _
  | ldB | storeRegs | loadRegs | drw => exact withRange_setST rfl
  | rnd x kk => simp only [exec, execRnd, drawRnd_setST]; rfl
  | _ => rfl

/-- Settles O51: replacing the sound timer commutes with the instruction, in the next state and in the fault. -/
theorem noInstructionReadsTheSoundTimer : Obligations.NoInstructionReadsTheSoundTimer := by
  unfold Obligations.NoInstructionReadsTheSoundTimer
  intro i s v hi
  have hcomm : exec i { s with ST := v } = withSTOf v (exec i s) := exec_setST s v hi
  constructor
  · intro t h; rw [hcomm, h]; rfl
  · intro f h; rw [hcomm, h]; rfl

end Sys2Proof.Machine
end

section
/-! PROOFS. The state after reset with the default font (spec/10_state.md R26). -/

namespace Sys2Proof.Machine

theorem State.reset_reg (r : RegIdx) : State.reset.reg r = 0x00 := by
  simp [State.reg, State.reset]

theorem background_of_lt {a : Nat} (h : a < font.length) : background a = font[a] := by
  rw [background, List.getElem?_eq_getElem h, Option.getD_some]

/-- Memory lists nothing after reset, so it reads as the background. -/
theorem State.reset_read (a : Nat) : State.reset.mem.read a = background a := rfl

/-- The display after reset is the one CLS gives. -/
theorem State.reset_disp : State.reset.disp = Display.clear := rfl

/-- Settles O54: memory by its background, the display as a cleared one, and every other field by the definition of
`State.reset`. -/
theorem resetValues : Obligations.ResetValues := by
  unfold Obligations.ResetValues
  refine ⟨State.reset_reg, rfl, rfl, rfl, rfl, rfl, font_length, ?_, ?_, ?_, rfl, rfl, rfl⟩
  · intro a h
    rw [State.reset_read, background_of_lt h]
  · intro a hlow _
    rw [State.reset_read, background_of_le hlow]
  · intro y x
    rw [State.reset_disp, Display.pixel_clear]

end Sys2Proof.Machine
end

section
/-! PROOFS. Memory as data: canonical memories are determined by their reads (assumption log 6), and a read gives what FX55
stored (spec/20_memory.md R35, R43). -/

namespace Sys2Proof.Machine

theorem Memory.read_cons_self (a : Nat) (v : Byte) (m : Memory) : Memory.read ((a, v) :: m) a = v := if_pos rfl

theorem Memory.read_cons_of_ne {a b : Nat} (h : a ≠ b) (v : Byte) (m : Memory) :
    Memory.read ((a, v) :: m) b = m.read b := if_neg h

/-- Below its first address a memory lists nothing. -/
theorem Memory.read_of_lt {m : Memory} {a : Nat} (h : ∀ c ∈ m, a < c.1) : m.read a = background a := by
  induction m with
  | nil => rfl
  | cons c m ih =>
    obtain ⟨b, v⟩ := c
    have hlt : a < b := h (b, v) List.mem_cons_self
    rw [Memory.read_cons_of_ne hlt.ne' v m]
    exact ih fun c hc => h c (List.mem_cons_of_mem _ hc)

/-- A listed byte is not the background, so no memory that lists only higher addresses reads like it. -/
theorem Memory.read_head_ne {a : Nat} {v : Byte} {m m' : Memory} (hm : Memory.wf ((a, v) :: m) = true)
    (h : ∀ c ∈ m', a < c.1) : Memory.read ((a, v) :: m) a ≠ m'.read a := by
  obtain ⟨-, hv, -, -⟩ := Memory.wf_cons.mp hm
  rwa [Memory.read_cons_self, Memory.read_of_lt h]

theorem Memory.head_le_of_read_eq {a b : Nat} {v w : Byte} {m m' : Memory} (hm : Memory.wf ((a, v) :: m) = true)
    (hm' : Memory.wf ((b, w) :: m') = true)
    (h : ∀ k, k ≤ 0xFFF → Memory.read ((a, v) :: m) k = Memory.read ((b, w) :: m') k) : b ≤ a := by
  obtain ⟨ha, -, -, -⟩ := Memory.wf_cons.mp hm
  obtain ⟨-, -, hlt, -⟩ := Memory.wf_cons.mp hm'
  by_contra hab
  refine Memory.read_head_ne hm (fun c hc => ?_) (h a ha)
  obtain rfl | hc := List.mem_cons.mp hc
  · exact Nat.lt_of_not_le hab
  · exact Nat.lt_trans (Nat.lt_of_not_le hab) (hlt c hc)

/-- At the address of the first entries both rests read as the background, elsewhere as the whole. -/
theorem Memory.tail_read_eq {a : Nat} {v w : Byte} {m m' : Memory} (hm : Memory.wf ((a, v) :: m) = true)
    (hm' : Memory.wf ((a, w) :: m') = true) {k : Nat}
    (h : Memory.read ((a, v) :: m) k = Memory.read ((a, w) :: m') k) : m.read k = m'.read k := by
  obtain ⟨-, -, hlt, -⟩ := Memory.wf_cons.mp hm
  obtain ⟨-, -, hlt', -⟩ := Memory.wf_cons.mp hm'
  by_cases hk : a = k
  · subst hk; rw [Memory.read_of_lt hlt, Memory.read_of_lt hlt']
  · rwa [Memory.read_cons_of_ne hk, Memory.read_cons_of_ne hk] at h

/-- Settles O29, by induction on the entries: the first entries have the same address, since a memory reads as the background
below its first address and as something else at it; so they have the same byte, and the rest reads alike. -/
theorem canonicalMemoriesThatReadAlikeAreEqual : Obligations.CanonicalMemoriesThatReadAlikeAreEqual := by
  unfold Obligations.CanonicalMemoriesThatReadAlikeAreEqual
  intro m
  induction m with
  | nil =>
    intro m' _ hm' h
    cases m' with
    | nil => rfl
    | cons c m' =>
      obtain ⟨hb, -, -, -⟩ := Memory.wf_cons.mp hm'
      exact absurd (h c.1 hb).symm (Memory.read_head_ne hm' (by simp))
  | cons c m ih =>
    intro m' hm hm' h
    obtain ⟨a, v⟩ := c
    obtain ⟨ha, -, -, hrest⟩ := Memory.wf_cons.mp hm
    cases m' with
    | nil => exact absurd (h a ha) (Memory.read_head_ne hm (by simp))
    | cons d m' =>
      obtain ⟨b, w⟩ := d
      obtain ⟨-, -, -, hrest'⟩ := Memory.wf_cons.mp hm'
      have hle : b ≤ a := Memory.head_le_of_read_eq hm hm' h
      have hge : a ≤ b := Memory.head_le_of_read_eq hm' hm fun k hk => (h k hk).symm
      obtain rfl := Nat.le_antisymm hge hle
      have hvw : v = w := by simpa only [Memory.read_cons_self] using h a ha
      rw [hvw, ih m' hrest hrest' fun k hk => Memory.tail_read_eq hm hm' (h k hk)]

/-- A byte that a transfer changes lies in its range. -/
theorem Memory.range_of_read_writeBytes_ne {m : Memory} {base a : Nat} {vs : List Byte}
    (h : (m.writeBytes base vs).read a ≠ m.read a) : base ≤ a ∧ a < base + vs.length := by
  by_contra hout
  exact h (Memory.read_writeBytes_outside (by omega))

/-- Where the registers V[0] to V[x] were written, each reads back at its place. -/
theorem Memory.read_writeBytes_regRange (m : Memory) (base : Nat) (s : State) {x k : RegIdx} (h : k ≤ x) :
    (m.writeBytes base (s.regRange x)).read (base + k.val) = s.reg k := by
  have hk : k.val ≤ x.val := h
  rw [Memory.read_writeBytes, dif_pos (by rw [regRange_length]; omega), regRange_getElem]
  simp

/-- Settles O28: FX55 moves pc to the next word, which is where V[0] and V[1] were stored. -/
theorem aStoreIsSeenByTheNextFetch : Obligations.AStoreIsSeenByTheNextFetch := by
  unfold Obligations.AStoreIsSeenByTheNextFetch
  intro s t x h hI hx hpc
  obtain ⟨-, rfl⟩ := execStoreRegs_next h
  have hnext : (s.pc + 2).toNat ≤ 0xFFE := by bv_omega
  have h1 : (1 : RegIdx) ≤ x := hx
  rw [fetchWord_of_le hnext, State.advance_pc, State.advance_mem, State.setMem_mem, State.setMem_pc, ← hI]
  congr 2
  · exact Memory.read_writeBytes_regRange s.mem s.I.toNat s (Fin.zero_le x)
  · exact Memory.read_writeBytes_regRange s.mem s.I.toNat s h1

end Sys2Proof.Machine
end

section
/-! PROOFS. Which piece of state an instruction may change (spec/10_state.md sections 3, 5 and 6). -/

namespace Sys2Proof.Machine

/-- What an instruction that goes on may change beside V and pc: one piece of state, and only the instructions named for that
piece change it. `exec_changesOnly` ties it to `exec`. -/
inductive ChangesOnly (s : State) : Instr → State → Prop
  | registers (i V pc) : ChangesOnly s i { s with V := V, pc := pc }
  | random (x kk V pc host) : ChangesOnly s (.rnd x kk) { s with V := V, pc := pc, host := host }
  | delayTimer (x DT pc) : ChangesOnly s (.ldDTVx x) { s with DT := DT, pc := pc }
  | soundTimer (x ST pc) : ChangesOnly s (.ldSTVx x) { s with ST := ST, pc := pc }
  | index {i} (hi : (∃ nnn, i = .ldI nnn) ∨ (∃ x, i = .addI x) ∨ ∃ x, i = .ldF x) (I pc) :
      ChangesOnly s i { s with I := I, pc := pc }
  | stack {i} (hi : i = .ret ∨ ∃ nnn, i = .call nnn) (stack pc) : ChangesOnly s i { s with stack := stack, pc := pc }
  | display {i} (hi : i = .cls ∨ ∃ x y n, i = .drw x y n) (V disp pc) :
      ChangesOnly s i { s with V := V, disp := disp, pc := pc }
  | wait (x) : ChangesOnly s (.ldVxK x) { s with run := .awaitingKey x }
  | memory {i} (hi : (∃ x, i = .ldB x) ∨ ∃ x, i = .storeRegs x) (mem pc) :
      ChangesOnly s i { s with mem := mem, pc := pc }

/-- Drawing a random byte changes the host's side only. -/
theorem State.drawRnd_eq_setHost (s : State) : s.drawRnd.2 = s.setHost s.drawRnd.2.host := by
  unfold State.drawRnd; split <;> rfl

theorem exec_changesOnly {i : Instr} {s t : State} (h : exec i s = .next t) : ChangesOnly s i t := by
  cases i with
  | cls => cases h; exact .display (.inl rfl) _ _ _
  | drw x y n => obtain ⟨-, drawn, -, rfl⟩ := execDrw_next h; exact .display (.inr ⟨x, y, n, rfl⟩) _ _ _
  | ret => obtain ⟨l, a, -, rfl⟩ := popToPc_next h; exact .stack (.inl rfl) _ _
  | call nnn => obtain ⟨-, rfl⟩ := callTo_next h; exact .stack (.inr ⟨nnn, rfl⟩) _ _
  | ldI nnn => cases h; exact .index (.inl ⟨nnn, rfl⟩) _ _
  | addI x => cases h; exact .index (.inr (.inl ⟨x, rfl⟩)) _ _
  | ldF x => cases h; exact .index (.inr (.inr ⟨x, rfl⟩)) _ _
  | rnd x kk => cases h; rw [State.drawRnd_eq_setHost]; exact .random _ _ _ _ _
  | ldVxK x => cases h; exact .wait x
  | ldDTVx x => cases h; exact .delayTimer _ _ _
  | ldSTVx x => cases h; exact .soundTimer _ _ _
  | ldB x => obtain ⟨-, rfl⟩ := execLdB_next h; exact .memory (.inl ⟨x, rfl⟩) _ _
  | storeRegs x => obtain ⟨-, rfl⟩ := execStoreRegs_next h; exact .memory (.inr ⟨x, rfl⟩) _ _
  | loadRegs x => obtain ⟨-, rfl⟩ := execLoadRegs_next h; exact .registers _ _ _
  | _ => cases h; exact .registers _ _ _

variable {i : Instr} {s t : State}

theorem exec_keeps_keys (h : exec i s = .next t) : t.keys = s.keys := by
  cases exec_changesOnly h <;> rfl

theorem exec_host_changed (h : exec i s = .next t) (hne : t.host ≠ s.host) : ∃ x kk, i = .rnd x kk := by
  cases exec_changesOnly h with
  | random x kk => exact ⟨x, kk, rfl⟩
  | _ => exact absurd rfl hne

theorem exec_DT_changed (h : exec i s = .next t) (hne : t.DT ≠ s.DT) : ∃ x, i = .ldDTVx x := by
  cases exec_changesOnly h with
  | delayTimer x => exact ⟨x, rfl⟩
  | _ => exact absurd rfl hne

theorem exec_ST_changed (h : exec i s = .next t) (hne : t.ST ≠ s.ST) : ∃ x, i = .ldSTVx x := by
  cases exec_changesOnly h with
  | soundTimer x => exact ⟨x, rfl⟩
  | _ => exact absurd rfl hne

theorem exec_I_changed (h : exec i s = .next t) (hne : t.I ≠ s.I) :
    (∃ nnn, i = .ldI nnn) ∨ (∃ x, i = .addI x) ∨ ∃ x, i = .ldF x := by
  cases exec_changesOnly h with
  | index hi => exact hi
  | _ => exact absurd rfl hne

theorem exec_stack_changed (h : exec i s = .next t) (hne : t.stack ≠ s.stack) : i = .ret ∨ ∃ nnn, i = .call nnn := by
  cases exec_changesOnly h with
  | stack hi => exact hi
  | _ => exact absurd rfl hne

theorem exec_disp_changed (h : exec i s = .next t) (hne : t.disp ≠ s.disp) : i = .cls ∨ ∃ x y n, i = .drw x y n := by
  cases exec_changesOnly h with
  | display hi => exact hi
  | _ => exact absurd rfl hne

theorem exec_run_changed (h : exec i s = .next t) (hne : t.run ≠ s.run) : ∃ x, i = .ldVxK x ∧ t.run = .awaitingKey x := by
  cases exec_changesOnly h with
  | wait x => exact ⟨x, rfl, rfl⟩
  | _ => exact absurd rfl hne

/-- A byte of memory that an instruction changes lies in the range of its transfer. -/
theorem exec_read_changed (h : exec i s = .next t) {a : Nat} (hne : t.mem.read a ≠ s.mem.read a) :
    s.I.toNat ≤ a ∧
      ((∃ x, i = .ldB x ∧ a ≤ s.I.toNat + 2) ∨ ∃ x : RegIdx, i = .storeRegs x ∧ a ≤ s.I.toNat + x.val) := by
  obtain heq | ⟨x, hi, -, heq⟩ | ⟨x, hi, -, heq⟩ := exec_mem_cases h <;> rw [heq] at hne
  · exact absurd rfl hne
  · obtain ⟨hlow, hhigh⟩ := Memory.range_of_read_writeBytes_ne hne
    rw [bcdDigits_length] at hhigh
    exact ⟨hlow, .inl ⟨x, hi, Nat.le_of_lt_succ hhigh⟩⟩
  · obtain ⟨hlow, hhigh⟩ := Memory.range_of_read_writeBytes_ne hne
    rw [regRange_length] at hhigh
    exact ⟨hlow, .inr ⟨x, hi, Nat.le_of_lt_succ hhigh⟩⟩

/-- Settles O49, field by field. -/
theorem eachFieldChangesOnlyByItsInstructions : Obligations.EachFieldChangesOnlyByItsInstructions := by
  unfold Obligations.EachFieldChangesOnlyByItsInstructions
  intro i s t h
  have hhost := exec_keeps_host h
  refine ⟨exec_keeps_keys h, ?_, ?_, ?_, exec_host_changed h, exec_DT_changed h, exec_ST_changed h, exec_I_changed h,
    exec_stack_changed h, exec_disp_changed h, exec_run_changed h, fun a => exec_read_changed h⟩
  all_goals rw [hhost]

end Sys2Proof.Machine
end

section
/-! PROOFS. Which steps change memory and the display (spec/20_memory.md R34; spec/10_state.md R22, R24). -/

namespace Sys2Proof.Machine

/-- With another agenda an instruction does the same to the machine. -/
theorem exec_of_exec_setAgenda {i : Instr} {s u : State} {ops : List HostOp} (h : exec i (s.setAgenda ops) = .next u) :
    ∃ v g, exec i s = .next v ∧ u = v.setHost g := by
  have hcomm : exec i (s.setAgenda ops) = withHostOf { s.host with agenda := ops } (exec i s) :=
    exec_setHost i s _ rfl rfl
  rw [h] at hcomm
  cases hv : exec i s with
  | next v => rw [hv] at hcomm; exact ⟨v, _, rfl, Host.Outcome.next.inj hcomm⟩
  | fault f => rw [hv] at hcomm; cases hcomm
  | refused r => rw [hv] at hcomm; cases hcomm

/-- A carried-out cycle that goes on executes the instruction at pc, or leaves memory and display alone: a wait and a fault
write neither. -/
theorem performCycle_keeps_or_executes {s t : State} (h : performCycle s = .next t) :
    (t.mem = s.mem ∧ t.disp = s.disp) ∨
    ∃ w i u g, s.run = .running ∧ s.fetchWord = some w ∧ decode w = .ok i ∧ exec i s = .next u ∧ t = u.setHost g := by
  obtain ⟨u, hu, rfl⟩ | ⟨f, -, -, rfl⟩ := performCycle_next h
  · obtain ⟨r, -, hwait⟩ | ⟨hr, w, i, hw, hd, hexec⟩ := runCycle_next hu
    · obtain ⟨-, rfl⟩ | ⟨k, -, rfl⟩ := completeWait_next hwait <;> exact .inl ⟨rfl, rfl⟩
    · exact .inr ⟨w, i, u, _, hr, hw, hd, hexec, rfl⟩
  · exact .inl ⟨rfl, rfl⟩

/-- A step that goes on leaves memory and display alone, executes an instruction, or loads a program. -/
theorem step_keeps_or_executes_or_loads {s t : State} (h : step s = .next t) :
    (t.mem = s.mem ∧ t.disp = s.disp) ∨
    (∃ i u g, s.Executes i ∧ exec i s = .next u ∧ t = u.setHost g) ∨
    ∃ bytes ops, s.host.agenda = .loadProgram bytes :: ops ∧ t.mem = s.mem.writeBytes Config.progBase bytes ∧
      t.disp = s.disp := by
  obtain ⟨s', hc, ⟨ha, rfl⟩ | ⟨ops, ha, rfl⟩⟩ | ⟨bytes, ops, ha, hl⟩ | ⟨ops, -, rfl⟩ | ⟨pressed, ops, -, rfl⟩ |
    ⟨ops, -, rfl⟩ | ⟨ops, -, hk⟩ := step_next h
  · obtain hkept | ⟨w, i, u, g, hr, hw, hd, hexec, rfl⟩ := performCycle_keeps_or_executes hc
    · exact .inl hkept
    · exact .inr (.inl ⟨i, u, g, ⟨.inl ha, hr, w, hw, hd⟩, hexec, rfl⟩)
  · obtain hkept | ⟨w, i, u, g, hr, hw, hd, hexec, rfl⟩ := performCycle_keeps_or_executes hc
    · exact .inl hkept
    · obtain ⟨v, g', hexec', rfl⟩ := exec_of_exec_setAgenda hexec
      exact .inr (.inl ⟨i, v, g, ⟨.inr ⟨ops, ha⟩, hr, w, hw, hd⟩, hexec', rfl⟩)
  · obtain ⟨-, -, -, rfl⟩ := performLoad_next hl
    exact .inr (.inr ⟨bytes, ops, ha, rfl, rfl⟩)
  · exact .inl ⟨rfl, rfl⟩
  · exact .inl ⟨rfl, rfl⟩
  · exact .inl ⟨rfl, rfl⟩
  · obtain ⟨-, rfl⟩ := performSkip_next hk
    exact .inl ⟨rfl, rfl⟩

/-- Settles O53: by the step; what an executed instruction changes is `exec_read_changed` and `exec_disp_changed`, and a load
is one transfer. -/
theorem memoryAndDisplayChangeOnlyAsDescribed : Obligations.MemoryAndDisplayChangeOnlyAsDescribed := by
  unfold Obligations.MemoryAndDisplayChangeOnlyAsDescribed
  intro s t h
  obtain ⟨hmem, hdisp⟩ | ⟨i, u, g, hi, hexec, rfl⟩ | ⟨bytes, ops, ha, hmem, hdisp⟩ := step_keeps_or_executes_or_loads h
  · exact ⟨fun a hne => absurd (by rw [hmem]) hne, fun hne => absurd hdisp hne⟩
  · constructor
    · intro a hne
      obtain ⟨hlow, ⟨x, rfl, hhigh⟩ | ⟨x, rfl, hhigh⟩⟩ := exec_read_changed hexec hne
      · exact .inl ⟨x, hi, hlow, hhigh⟩
      · exact .inr (.inl ⟨x, hi, hlow, hhigh⟩)
    · intro hne
      obtain rfl | ⟨x, y, n, rfl⟩ := exec_disp_changed hexec hne
      · exact .inl hi
      · exact .inr ⟨x, y, n, hi⟩
  · refine ⟨fun a hne => ?_, fun hne => absurd hdisp hne⟩
    rw [hmem] at hne
    obtain ⟨hlow, hhigh⟩ := Memory.range_of_read_writeBytes_ne hne
    exact .inr (.inr ⟨bytes, ops, ha, hlow, hhigh⟩)

end Sys2Proof.Machine
end

section
/-! PROOFS. A word decodes exactly when it selects a row of the opcode table (spec/30_encoding.md R54, R55, R57).

The decoder against the table: what decodes selects the row of its instruction; what is refused selects none; and two rows
never take the same word, so a word that selects a row decodes, and to that row. -/

namespace Sys2Proof

/-! ## A selected row, read field by field

A mask of R55 keeps whole digits, so `w AND mask = match` speaks of fields of `w`. -/

theorem selects_formatA_row {w : Word} {op : Nibble} (hop : opField w = op) : w &&& 0xF000#16 = op ++ 0x000#12 := by
  have h := Laws.formatA_row (opField w) (nnnField w)
  rwa [formatA_fields, hop] at h

theorem selects_formatR_row {w : Word} {op n : Nibble} (hop : opField w = op) (hn : nField w = n) :
    w &&& 0xF00F#16 = op ++ 0x00#8 ++ n := by
  have h := Laws.formatR_row (opField w) (xField w) (yField w) (nField w)
  rwa [formatR_fields, hop, hn] at h

theorem selects_formatX_row {w : Word} {op : Nibble} {kk : Byte} (hop : opField w = op) (hkk : kkField w = kk) :
    w &&& 0xF0FF#16 = op ++ 0x0#4 ++ kk := by
  have h := Laws.formatX_row (opField w) (xField w) (kkField w)
  rwa [formatI_fields, hop, hkk] at h

/-- Bits that the mask keeps are the pattern's. -/
theorem extractLsb'_of_selects {w : Word} {r : OpRow} {start len : Nat}
    (hmask : r.mask.extractLsb' start len = BitVec.allOnes len) (h : w &&& r.mask = r.pattern) :
    w.extractLsb' start len = r.pattern.extractLsb' start len := by
  rw [← h, BitVec.extractLsb'_and, hmask, BitVec.and_allOnes]

theorem opField_of_selects {w : Word} {r : OpRow} (hmask : opField r.mask = 0xF#4) (h : w &&& r.mask = r.pattern) :
    opField w = opField r.pattern := extractLsb'_of_selects hmask h

theorem nField_of_selects {w : Word} {r : OpRow} (hmask : nField r.mask = 0xF#4) (h : w &&& r.mask = r.pattern) :
    nField w = nField r.pattern := extractLsb'_of_selects hmask h

theorem kkField_of_selects {w : Word} {r : OpRow} (hmask : kkField r.mask = 0xFF#8) (h : w &&& r.mask = r.pattern) :
    kkField w = kkField r.pattern := extractLsb'_of_selects hmask h

theorem eq_pattern_of_selects {w : Word} {r : OpRow} (hmask : r.mask = 0xFFFF#16) (h : w &&& r.mask = r.pattern) :
    w = r.pattern := by
  rw [← h, hmask]
  exact BitVec.and_allOnes.symm

/-! ## The table: finite facts -/

/-- The function codes of R54 under major opcode 0x8. -/
def functionCodes8 : List Nibble := [0x0#4, 0x1#4, 0x2#4, 0x3#4, 0x4#4, 0x5#4, 0x6#4, 0x7#4, 0xE#4]

/-- The function bytes of R54 under major opcode 0xF. -/
def functionBytesF : List Byte := [0x07#8, 0x0A#8, 0x15#8, 0x18#8, 0x1E#8, 0x29#8, 0x33#8, 0x55#8, 0x65#8]

theorem rowOf_mem_opcodeTable (i : Instr) : rowOf i ∈ opcodeTable := by
  cases i <;> simp [rowOf, opcodeTable, opcodeRowsLow, opcodeRowsHigh]

/-- Two different rows differ in a literal bit that both masks keep. -/
theorem row_eq_of_patterns_agree :
    ∀ r ∈ opcodeTable, ∀ r' ∈ opcodeTable, r.pattern &&& r'.mask = r'.pattern &&& r.mask → r = r' := by decide

/-- No two rows of the table overlap (R54, D13). -/
theorem row_unique {w : Word} {r r' : OpRow} (hr : r ∈ opcodeTable) (hr' : r' ∈ opcodeTable)
    (h : w &&& r.mask = r.pattern) (h' : w &&& r'.mask = r'.pattern) : r = r' := by
  refine row_eq_of_patterns_agree r hr r' hr' ?_
  rw [← h, ← h', BitVec.and_assoc, BitVec.and_assoc, BitVec.and_comm r.mask]

/-- Every row fixes the major opcode. -/
theorem opField_mask_eq : ∀ r ∈ opcodeTable, opField r.mask = 0xF#4 := by decide

/-- Under major opcode 0x0 all four digits of a row are literal. -/
theorem word_of_op0_row : ∀ r ∈ opcodeTable, opField r.pattern = 0x0#4 →
    r.mask = 0xFFFF#16 ∧ r.pattern ∈ [0x00E0#16, 0x00EE#16] := by decide

/-- Under the major opcodes 0x5, 0x8 and 0x9 a row is one of format R, with one of these function codes. -/
theorem code_of_op589_row : ∀ r ∈ opcodeTable,
    (opField r.pattern = 0x5#4 → nField r.mask = 0xF#4 ∧ nField r.pattern = 0x0#4) ∧
    (opField r.pattern = 0x8#4 → nField r.mask = 0xF#4 ∧ nField r.pattern ∈ functionCodes8) ∧
    (opField r.pattern = 0x9#4 → nField r.mask = 0xF#4 ∧ nField r.pattern = 0x0#4) := by decide

/-- Under the major opcodes 0xE and 0xF a row is one of format X, with one of these function bytes. -/
theorem byte_of_opEF_row : ∀ r ∈ opcodeTable,
    (opField r.pattern = 0xE#4 → kkField r.mask = 0xFF#8 ∧ kkField r.pattern ∈ [0x9E#8, 0xA1#8]) ∧
    (opField r.pattern = 0xF#4 → kkField r.mask = 0xFF#8 ∧ kkField r.pattern ∈ functionBytesF) := by decide

/-! ## What the decoder answers

By the major opcode, and in one statement for both answers: an instruction whose row takes the word, or a refusal, and then
the word is in a group of R57. -/

/-- The row of `i` takes the word. -/
def SelectsRowOf (w : Word) (i : Instr) : Prop := w &&& (rowOf i).mask = (rowOf i).pattern

/-- `answer` is an instruction whose row takes `w`, or the refusal of `w`, and then `refused` holds. -/
def RowOrRefusal (w : Word) (answer : Except DecodeError Instr) (refused : Prop) : Prop :=
  (∃ i, answer = .ok i ∧ SelectsRowOf w i) ∨ (answer = .error (.unsupportedOpcode w) ∧ refused)

theorem RowOrRefusal.mono {w : Word} {answer : Except DecodeError Instr} {p q : Prop} (hpq : p → q)
    (h : RowOrRefusal w answer p) : RowOrRefusal w answer q :=
  h.imp_right (And.imp_right hpq)

/-- The six groups of illegal words (R57). -/
def InRefusedGroup (w : Word) : Prop :=
  (opField w = 0x0#4 ∧ w ∉ [0x00E0#16, 0x00EE#16]) ∨
  (opField w = 0x5#4 ∧ nField w ≠ 0x0#4) ∨
  (opField w = 0x8#4 ∧ nField w ∉ functionCodes8) ∨
  (opField w = 0x9#4 ∧ nField w ≠ 0x0#4) ∨
  (opField w = 0xE#4 ∧ kkField w ∉ [0x9E#8, 0xA1#8]) ∨
  (opField w = 0xF#4 ∧ kkField w ∉ functionBytesF)

theorem decode0_answer (w : Word) : RowOrRefusal w (decode0 w) (w ∉ [0x00E0#16, 0x00EE#16]) := by
  unfold decode0
  split_ifs with hcls hret
  · exact .inl ⟨.cls, rfl, hcls ▸ rfl⟩
  · exact .inl ⟨.ret, rfl, hret ▸ rfl⟩
  · exact .inr ⟨rfl, by simp [hcls, hret]⟩

theorem decode8_answer {w : Word} (hop : opField w = 0x8#4) :
    RowOrRefusal w (decode8 w) (nField w ∉ functionCodes8) := by
  unfold decode8
  split_ifs
  case neg => exact .inr ⟨rfl, by simp [functionCodes8, *]⟩
  all_goals
    rename_i hn
    exact .inl ⟨_, rfl, selects_formatR_row hop hn⟩

theorem decodeE_answer {w : Word} (hop : opField w = 0xE#4) :
    RowOrRefusal w (decodeE w) (kkField w ∉ [0x9E#8, 0xA1#8]) := by
  unfold decodeE
  split_ifs
  case neg => exact .inr ⟨rfl, by simp [*]⟩
  all_goals
    rename_i hkk
    exact .inl ⟨_, rfl, selects_formatX_row hop hkk⟩

theorem decodeF_answer {w : Word} (hop : opField w = 0xF#4) :
    RowOrRefusal w (decodeF w) (kkField w ∉ functionBytesF) := by
  unfold decodeF
  split_ifs
  case neg => exact .inr ⟨rfl, by simp [functionBytesF, *]⟩
  all_goals
    rename_i hkk
    exact .inl ⟨_, rfl, selects_formatX_row hop hkk⟩

/-- Major opcodes 0x5 and 0x9: one form, whose last digit is the literal 0. -/
theorem zeroCode_answer {w : Word} {i : Instr} (h : nField w = 0x0#4 → SelectsRowOf w i) :
    RowOrRefusal w (if nField w = 0x0#4 then .ok i else .error (.unsupportedOpcode w)) (nField w ≠ 0x0#4) := by
  split_ifs with hn
  · exact .inl ⟨i, rfl, h hn⟩
  · exact .inr ⟨rfl, hn⟩

/-- The major opcodes whose row has no other literal digit: formats A, I and D. -/
theorem decode_selects_of_opcode_alone {w : Word}
    (hop : opField w ∈ [0x1#4, 0x2#4, 0x3#4, 0x4#4, 0x6#4, 0x7#4, 0xA#4, 0xB#4, 0xC#4, 0xD#4]) :
    ∃ i, decode w = .ok i ∧ SelectsRowOf w i := by
  simp only [List.mem_cons, List.not_mem_nil, or_false] at hop
  obtain hop | hop | hop | hop | hop | hop | hop | hop | hop | hop := hop
  all_goals
    simp only [decode, hop, BitVec.reduceEq, ↓reduceIte, Except.ok.injEq, exists_eq_left']
    exact selects_formatA_row hop

/-- The cases of R54: the first digit decides alone, or one of the six major opcodes with more literal digits. -/
theorem op_cases : ∀ op : Nibble, op ∈ [0x1#4, 0x2#4, 0x3#4, 0x4#4, 0x6#4, 0x7#4, 0xA#4, 0xB#4, 0xC#4, 0xD#4] ∨
    op = 0x0#4 ∨ op = 0x5#4 ∨ op = 0x8#4 ∨ op = 0x9#4 ∨ op = 0xE#4 ∨ op = 0xF#4 := by decide

/-- The decoder as a whole: an instruction whose row takes the word, or the refusal of a word of the six groups. -/
theorem decode_answer (w : Word) : RowOrRefusal w (decode w) (InRefusedGroup w) := by
  obtain hop | hop | hop | hop | hop | hop | hop := op_cases (opField w)
  · exact .inl (decode_selects_of_opcode_alone hop)
  · have hd : decode w = decode0 w := by simp [decode, hop]
    exact (hd ▸ decode0_answer w).mono fun h => .inl ⟨hop, h⟩
  · have hd : decode w =
        if nField w = 0x0#4 then .ok (.seReg (xField w) (yField w)) else .error (.unsupportedOpcode w) := by
      simp [decode, hop]
    rw [hd]
    exact .mono (fun h => .inr (.inl ⟨hop, h⟩)) (zeroCode_answer fun hn => selects_formatR_row hop hn)
  · have hd : decode w = decode8 w := by simp [decode, hop]
    exact (hd ▸ decode8_answer hop).mono fun h => .inr (.inr (.inl ⟨hop, h⟩))
  · have hd : decode w =
        if nField w = 0x0#4 then .ok (.sneReg (xField w) (yField w)) else .error (.unsupportedOpcode w) := by
      simp [decode, hop]
    rw [hd]
    exact .mono (fun h => .inr (.inr (.inr (.inl ⟨hop, h⟩)))) (zeroCode_answer fun hn => selects_formatR_row hop hn)
  · have hd : decode w = decodeE w := by simp [decode, hop]
    exact (hd ▸ decodeE_answer hop).mono fun h => .inr (.inr (.inr (.inr (.inl ⟨hop, h⟩))))
  · have hd : decode w = decodeF w := by simp [decode, hop]
    exact (hd ▸ decodeF_answer hop).mono fun h => .inr (.inr (.inr (.inr (.inr ⟨hop, h⟩))))

/-- In each group of refused words the major opcode leaves only rows whose literal digits the word has not. -/
theorem not_selects_of_refused {w : Word} (h : InRefusedGroup w) {r : OpRow} (hr : r ∈ opcodeTable) :
    w &&& r.mask ≠ r.pattern := by
  intro hsel
  have hop := opField_of_selects (opField_mask_eq r hr) hsel
  obtain ⟨code5, code8, code9⟩ := code_of_op589_row r hr
  obtain ⟨byteE, byteF⟩ := byte_of_opEF_row r hr
  obtain ⟨h0, hw⟩ | ⟨h5, hn⟩ | ⟨h8, hn⟩ | ⟨h9, hn⟩ | ⟨hE, hkk⟩ | ⟨hF, hkk⟩ := h
  · obtain ⟨hmask, hmem⟩ := word_of_op0_row r hr (hop ▸ h0)
    exact hw (eq_pattern_of_selects hmask hsel ▸ hmem)
  · obtain ⟨hmask, hcode⟩ := code5 (hop ▸ h5)
    exact hn (nField_of_selects hmask hsel ▸ hcode)
  · obtain ⟨hmask, hcode⟩ := code8 (hop ▸ h8)
    exact hn (nField_of_selects hmask hsel ▸ hcode)
  · obtain ⟨hmask, hcode⟩ := code9 (hop ▸ h9)
    exact hn (nField_of_selects hmask hsel ▸ hcode)
  · obtain ⟨hmask, hcode⟩ := byteE (hop ▸ hE)
    exact hkk (kkField_of_selects hmask hsel ▸ hcode)
  · obtain ⟨hmask, hcode⟩ := byteF (hop ▸ hF)
    exact hkk (kkField_of_selects hmask hsel ▸ hcode)

/-- Settles O3: what decodes selects the row of its instruction; what selects a row is not refused, and the row it decodes to
is that row, since no two overlap. -/
theorem aWordDecodesToTheRowItSelects : Obligations.AWordDecodesToTheRowItSelects := by
  unfold Obligations.AWordDecodesToTheRowItSelects
  constructor
  · intro w i hd
    obtain ⟨j, hj, hrow⟩ | ⟨herr, -⟩ := decode_answer w
    · cases hd.symm.trans hj
      exact ⟨rowOf_mem_opcodeTable i, hrow⟩
    · cases hd.symm.trans herr
  · intro w r hr hsel
    obtain ⟨i, hi, hrow⟩ | ⟨-, hgroup⟩ := decode_answer w
    · exact ⟨i, hi, row_unique (rowOf_mem_opcodeTable i) hr hrow hsel⟩
    · exact absurd hsel (not_selects_of_refused hgroup hr)

end Sys2Proof
end

section
/-! PROOFS. Return, jump, call and skips (spec/40_control_flow.md), and the jump to its own address
(spec/70_reset_and_hazards.md R165). -/

namespace Sys2Proof.Machine

/-! ## What the instructions give -/

theorem exec_ret_of_concat {s : State} {l : List Word} {a : Word} (h : s.stack = l ++ [a]) :
    exec .ret s = .next { s with pc := a, stack := l } := popToPc_concat h

theorem exec_ret_of_empty {s : State} (h : s.stack = []) : exec .ret s = .fault .stackUnderflow := popToPc_empty h

theorem exec_call_of_room {s : State} (nnn : Imm12) (h : s.stack.length < Config.stackDepth) :
    exec (.call nnn) s = .next { s with pc := zext12 nnn, stack := s.stack ++ [s.pc + 2] } := callTo_of_room h

theorem exec_call_of_full {s : State} (nnn : Imm12) (h : Config.stackDepth ≤ s.stack.length) :
    exec (.call nnn) s = .fault .stackOverflow := callTo_of_full h

theorem exec_jp (nnn : Imm12) (s : State) : exec (.jp nnn) s = .next { s with pc := zext12 nnn } := rfl

theorem exec_jpV0 (nnn : Imm12) (s : State) :
    exec (.jpV0 nnn) s = .next { s with pc := offsetTarget (s.reg 0) nnn } := rfl

theorem State.skipIf_beq (s : State) (a b : Byte) :
    s.skipIf (a == b) = { s with pc := s.pc + if a = b then 4 else 2 } := by
  by_cases h : a = b <;> simp [State.skipIf, State.setPc, h]

theorem State.skipIf_bne (s : State) (a b : Byte) :
    s.skipIf (a != b) = { s with pc := s.pc + if a = b then 2 else 4 } := by
  by_cases h : a = b <;> simp [State.skipIf, State.setPc, h]

/-! ## The statements about one instruction -/

/-- Settles O10: the pop of a stack that ends in an entry, and of the empty one. -/
theorem returnPopsIntoPc : Obligations.ReturnPopsIntoPc := by
  unfold Obligations.ReturnPopsIntoPc
  exact fun s => ⟨fun l a h => exec_ret_of_concat h, exec_ret_of_empty⟩

/-- Settles O11: zero extension keeps NNN as a number. -/
theorem jumpLoadsPc : Obligations.JumpLoadsPc := by
  unfold Obligations.JumpLoadsPc
  exact fun s nnn => ⟨_, exec_jp nnn s, zext12_toNat nnn, rfl⟩

/-- Settles O12: by whether the stack has room. -/
theorem callPushesTheNextAddress : Obligations.CallPushesTheNextAddress := by
  unfold Obligations.CallPushesTheNextAddress
  refine fun s nnn => ⟨fun hroom => ?_, fun hfull => ?_⟩
  · exact ⟨_, exec_call_of_room nnn hroom, zext12_toNat nnn, rfl⟩
  · exact exec_call_of_full nnn hfull.ge

/-- Settles O13: each skip is one comparison, for equality or for difference. -/
theorem registerSkipsTestTheirCondition : Obligations.RegisterSkipsTestTheirCondition := by
  unfold Obligations.RegisterSkipsTestTheirCondition
  refine fun s x y kk => ⟨?_, ?_, ?_, ?_⟩
  · exact congrArg Host.Outcome.next (s.skipIf_beq (s.reg x) kk)
  · exact congrArg Host.Outcome.next (s.skipIf_bne (s.reg x) kk)
  · exact congrArg Host.Outcome.next (s.skipIf_beq (s.reg x) (s.reg y))
  · exact congrArg Host.Outcome.next (s.skipIf_bne (s.reg x) (s.reg y))

/-- Settles O14: the sum of a byte and 12 bits does not wrap at 16 bits. -/
theorem offsetJumpAddsV0 : Obligations.OffsetJumpAddsV0 := by
  unfold Obligations.OffsetJumpAddsV0
  exact fun s nnn => ⟨_, exec_jpV0 nnn s, offsetTarget_toNat (s.reg 0) nnn, rfl⟩

/-- Settles O15: the return pops the entry that the call pushed. -/
theorem callThenReturnComesBack : Obligations.CallThenReturnComesBack := by
  unfold Obligations.CallThenReturnComesBack
  intro s nnn hroom
  exact ⟨_, exec_call_of_room nnn hroom, List.length_append, exec_ret_of_concat rfl⟩

/-- Settles O58: a stack with an entry ends in one. -/
theorem returnAndCallComplete : Obligations.ReturnAndCallComplete := by
  unfold Obligations.ReturnAndCallComplete
  refine fun s nnn => ⟨fun hentry => ?_, fun hroom => ?_⟩
  · have hlast := List.dropLast_append_getLast (List.ne_nil_of_length_pos hentry)
    exact ⟨_, exec_ret_of_concat hlast.symm, hlast.symm, rfl⟩
  · exact ⟨_, exec_call_of_room nnn hroom, rfl, zext12_toNat nnn, rfl⟩

/-! ## The jump to its own address -/

theorem formatA_toNat (op : Nibble) (nnn : Imm12) : (formatA op nnn).toNat = 4096 * op.toNat + nnn.toNat := by
  rw [formatA, BitVec.toNat_append, ← Nat.shiftLeft_add_eq_or_of_lt nnn.isLt, Nat.shiftLeft_eq]
  omega

theorem decode_formatA_jp (nnn : Imm12) : decode (formatA 0x1 nnn) = .ok (.jp nnn) := by
  simp [decode]

/-- The word of a jump to `a`, read as a number, is 0x1000 + `a`. -/
theorem decode_jp_of_toNat {w a : Word} (ha : a.toNat ≤ 0xFFF) (hw : w.toNat = 0x1000 + a.toNat) :
    ∃ nnn, decode w = .ok (.jp nnn) ∧ zext12 nnn = a := by
  have hnnn : (a.setWidth 12).toNat = a.toNat := by rw [BitVec.toNat_setWidth]; omega
  have hword : w = formatA 0x1 (a.setWidth 12) := by
    apply BitVec.eq_of_toNat_eq
    rw [hw, formatA_toNat, hnnn]
    rfl
  refine ⟨a.setWidth 12, hword ▸ decode_formatA_jp _, ?_⟩
  exact BitVec.eq_of_toNat_eq ((zext12_toNat _).trans hnnn)

theorem State.setPhase_self {s : State} {p : Phase} (h : s.host.phase = p) : s.setPhase p = s := by
  subst h; rfl

theorem performCycle_of_runCycle_next {s t : State} (h : runCycle s = .next t) :
    performCycle s = .next (t.setPhase .started) := by simp [performCycle, h]

theorem run_succ_of_step_next {M : Host.Core} {s t : M.State} (h : M.step s = .next t) (n : Nat) :
    M.run (n + 1) s = M.run n t := by rw [Host.Core.run, h]

theorem run_of_step_fixed {M : Host.Core} {s : M.State} (h : M.step s = .next s) (n : Nat) : M.run n s = .next s := by
  induction n with
  | zero => rfl
  | succ n ih => exact (run_succ_of_step_next h n).trans ih

/-- A cycle at a jump to its own address ends in the state it began in. -/
theorem runCycle_of_self_jump {s : State} {w : Word} (hr : s.run = .running) (hfetch : s.fetchWord = some w)
    (hw : w.toNat = 0x1000 + s.pc.toNat) : runCycle s = .next s := by
  obtain ⟨hpc, -⟩ := fetchWord_eq_some hfetch
  obtain ⟨nnn, hdecode, htarget⟩ := decode_jp_of_toNat (by omega) hw
  rw [runCycle_of_executes hr hfetch hdecode, exec_jp, htarget]

/-- Settles O16: the state is a fixed point of the step, so of every number of them. -/
theorem aSelfJumpRunsForever : Obligations.ASelfJumpRunsForever := by
  unfold Obligations.ASelfJumpRunsForever
  intro n s w hagenda hphase hr hfetch hw
  have hstep : step s = .next s := by
    rw [step_of_agenda_nil hagenda, performCycle_of_runCycle_next (runCycle_of_self_jump hr hfetch hw),
      State.setPhase_self hphase]
  exact run_of_step_fixed hstep n

end Sys2Proof.Machine
end

section
/-! PROOFS. Register load, arithmetic, logic and shift (spec/41_register_alu.md R80 to R93). -/

namespace Sys2Proof.Machine

/-! ## The flags as numbers -/

theorem flagByte_toNat (b : Bool) : (flagByte b).toNat = if b = true then 1 else 0 := by cases b <;> rfl

theorem flagByte_carryOut_toNat (a b : Byte) :
    (flagByte (carryOut a b)).toNat = if a.toNat + b.toNat > 255 then 1 else 0 := by
  simp only [flagByte_toNat, carryOut_eq_true, gt_iff_lt]

theorem flagByte_noBorrow_toNat (a b : Byte) :
    (flagByte (noBorrow a b)).toNat = if a.toNat ≥ b.toNat then 1 else 0 := by
  simp only [flagByte_toNat, noBorrow_eq_true, ge_iff_le]

theorem flagByte_shiftedOutRight_toNat (a : Byte) : (flagByte (shiftedOutRight a)).toNat = a.toNat % 2 := by
  simp only [flagByte_toNat, shiftedOutRight_eq, beq_iff_eq]
  split <;> omega

theorem flagByte_shiftedOutLeft_toNat (a : Byte) : (flagByte (shiftedOutLeft a)).toNat = a.toNat / 128 := by
  simp only [flagByte_toNat, shiftedOutLeft_eq, decide_eq_true_eq]
  split <;> omega

/-! ## The two ways these instructions write registers -/

variable {i : Instr} {s : State} {x : RegIdx} {v : Byte} {b : Bool}

/-- R82: what an instruction gives that writes V[x], leaves the flag alone and advances. -/
theorem exec_of_setReg (h : exec i s = .next (s.setReg x v).advance) :
    ∃ t, exec i s = .next t ∧ t.reg x = v ∧ (∀ r, r ≠ x → t.reg r = s.reg r) ∧
      t = { s with V := t.V, pc := s.pc + 2 } :=
  ⟨_, h, s.setReg_reg_same x v, fun _ hr => s.setReg_reg_ne hr v, rfl⟩

/-- R82: what an instruction gives that writes V[x], then the flag, and advances. With x = 15 the flag is what stands
(assumption log 12). -/
theorem exec_of_setRegFlag (h : exec i s = .next (s.setRegFlag x v b).advance) :
    ∃ t, exec i s = .next t ∧ (x ≠ 15 → t.reg x = v) ∧ t.reg 15 = flagByte b ∧
      (∀ r, r ≠ x → r ≠ 15 → t.reg r = s.reg r) ∧ t = { s with V := t.V, pc := s.pc + 2 } := by
  refine ⟨_, h, fun hx => ?_, ?_, fun r hr hvf => ?_, rfl⟩
  · rw [State.advance_reg, State.setRegFlag_reg, if_neg hx, if_pos rfl]
  · rw [State.advance_reg, State.setRegFlag_reg, if_pos rfl]
  · rw [State.advance_reg, State.setRegFlag_reg, if_neg hvf, if_neg hr]

/-! ## The statements -/

/-- Settles O17: the three instructions write V[X] and no flag; the sum is modulo 256. -/
theorem loadsAndAddImmediateWriteOnlyVx : Obligations.LoadsAndAddImmediateWriteOnlyVx := by
  unfold Obligations.LoadsAndAddImmediateWriteOnlyVx
  refine fun s x y kk => ⟨exec_of_setReg rfl, ?_, exec_of_setReg rfl⟩
  obtain ⟨t, ht, hx, hframe⟩ := exec_of_setReg (i := .addImm x kk) (s := s) rfl
  exact ⟨t, ht, by rw [hx, sum8_toNat], hframe⟩

/-- Settles O18: the bits of the byte that is written, one operation at a time. -/
theorem logicActsOnEachBit : Obligations.LogicActsOnEachBit := by
  unfold Obligations.LogicActsOnEachBit
  refine fun s x y => ⟨?_, ?_, ?_⟩
  · obtain ⟨t, ht, hx, hframe⟩ := exec_of_setReg (i := .orReg x y) (s := s) rfl
    exact ⟨t, ht, fun k _ => by rw [hx, BitVec.getLsbD_or], hframe⟩
  · obtain ⟨t, ht, hx, hframe⟩ := exec_of_setReg (i := .andReg x y) (s := s) rfl
    exact ⟨t, ht, fun k _ => by rw [hx, BitVec.getLsbD_and], hframe⟩
  · obtain ⟨t, ht, hx, hframe⟩ := exec_of_setReg (i := .xorReg x y) (s := s) rfl
    exact ⟨t, ht, fun k _ => by rw [hx, BitVec.getLsbD_xor], hframe⟩

/-- Settles O19: the sum and the carry as numbers, both of the operands before the instruction. -/
theorem addGivesSumAndCarry : Obligations.AddGivesSumAndCarry := by
  unfold Obligations.AddGivesSumAndCarry
  intro s x y
  obtain ⟨t, ht, hx, hflag, hframe⟩ := exec_of_setRegFlag (i := .addReg x y) (s := s) rfl
  exact ⟨t, ht, fun hne => by rw [hx hne, sum8_toNat], by rw [hflag, flagByte_carryOut_toNat], hframe⟩

/-- Settles O20: SUB and SUBN are one subtraction with its operands in either order. -/
theorem subtractGivesDifferenceAndNoBorrow : Obligations.SubtractGivesDifferenceAndNoBorrow := by
  unfold Obligations.SubtractGivesDifferenceAndNoBorrow
  refine fun s x y => ⟨?_, ?_⟩
  · obtain ⟨t, ht, hx, hflag, hframe⟩ := exec_of_setRegFlag (i := .subReg x y) (s := s) rfl
    exact ⟨t, ht, fun hne => by rw [hx hne, diff8_toNat], by rw [hflag, flagByte_noBorrow_toNat], hframe⟩
  · obtain ⟨t, ht, hx, hflag, hframe⟩ := exec_of_setRegFlag (i := .subnReg x y) (s := s) rfl
    exact ⟨t, ht, fun hne => by rw [hx hne, diff8_toNat], by rw [hflag, flagByte_noBorrow_toNat], hframe⟩

/-- Settles O21: neither shift reads Y; the flag is the lowest or the highest bit as a number. -/
theorem shiftsGiveTheBitShiftedOut : Obligations.ShiftsGiveTheBitShiftedOut := by
  unfold Obligations.ShiftsGiveTheBitShiftedOut
  refine fun s x y => ⟨?_, ?_⟩
  · obtain ⟨t, ht, hx, hflag, hframe⟩ := exec_of_setRegFlag (i := .shr x y) (s := s) rfl
    exact ⟨t, ht, fun hne => by rw [hx hne, shiftRight1_toNat], by rw [hflag, flagByte_shiftedOutRight_toNat], hframe⟩
  · obtain ⟨t, ht, hx, hflag, hframe⟩ := exec_of_setRegFlag (i := .shl x y) (s := s) rfl
    exact ⟨t, ht, fun hne => by rw [hx hne, shiftLeft1_toNat], by rw [hflag, flagByte_shiftedOutLeft_toNat], hframe⟩

end Sys2Proof.Machine
end

section
/-! PROOFS. Index register and memory transfer (spec/42_index_memory.md R100 to R107). -/

namespace Sys2Proof.Machine

/-! ## The range check: a transfer is checked by its last address, I + n (R100) -/

section
variable {s : State} {n : Nat} {k : Result}

theorem withRange_of_last_le (h : effectiveAddress s.I n ≤ 0xFFF) : s.withRange (n + 1) k = k :=
  withRange_of_inMemory (rangeInMemory_eq_true.mpr (.inl (Nat.succ_le_succ h)))

theorem withRange_of_last_gt (h : effectiveAddress s.I n > 0xFFF) :
    s.withRange (n + 1) k = .fault .memoryAddressOutOfRange := by
  refine withRange_of_outside (Bool.eq_false_iff.mpr fun hr => ?_)
  obtain hle | hzero := rangeInMemory_eq_true.mp hr
  · exact absurd hle (Nat.not_le_of_gt (Nat.succ_lt_succ h))
  · exact absurd hzero n.succ_ne_zero

end

/-! ## What a transfer writes -/

theorem Memory.read_writeBytes_at (m : Memory) (base : Nat) {vs : List Byte} {k : Nat} (h : k < vs.length) :
    (m.writeBytes base vs).read (base + k) = vs[k] := by
  rw [Memory.read_writeBytes, dif_pos (by omega)]
  simp only [Nat.add_sub_cancel_left]

theorem Memory.read_writeBytes_of_ne {m : Memory} {base a : Nat} {vs : List Byte}
    (h : ∀ k, k < vs.length → a ≠ base + k) : (m.writeBytes base vs).read a = m.read a := by
  by_contra hne
  obtain ⟨hlow, hhigh⟩ := Memory.range_of_read_writeBytes_ne hne
  exact h (a - base) (by omega) (by omega)

theorem bcdDigits_toNat (v : Byte) :
    (bcdDigits v).map BitVec.toNat = [v.toNat / 100, v.toNat / 10 % 10, v.toNat % 10] := by
  have hundreds : v.toNat / 100 % 2 ^ 8 = v.toNat / 100 := Nat.mod_eq_of_lt (by omega)
  have tens : v.toNat / 10 % 10 % 2 ^ 8 = v.toNat / 10 % 10 := Nat.mod_eq_of_lt (by omega)
  have units : v.toNat % 10 % 2 ^ 8 = v.toNat % 10 := Nat.mod_eq_of_lt (by omega)
  simp only [bcdDigits, List.map_cons, List.map_nil, BitVec.toNat_ofNat, hundreds, tens, units]

/-- A digit that FX33 wrote, read back as a number. -/
theorem Memory.read_writeBytes_bcdDigits (m : Memory) (base : Nat) (v : Byte) {k : Nat} (h : k < 3) :
    ((m.writeBytes base (bcdDigits v)).read (base + k)).toNat =
      [v.toNat / 100, v.toNat / 10 % 10, v.toNat % 10][k] := by
  rw [Memory.read_writeBytes_at m base (vs := bcdDigits v) h]
  exact (List.getElem_map BitVec.toNat).symm.trans (List.getElem_of_eq (bcdDigits_toNat v) h)

/-! ## What the instructions give -/

/-- What an instruction gives that writes I and advances: its frame. -/
theorem exec_of_setI {i : Instr} {s : State} {v : Word} (h : exec i s = .next (s.setI v).advance) :
    ∃ t, exec i s = .next t ∧ t.I = v ∧ t = { s with I := t.I, pc := s.pc + 2 } := ⟨_, h, rfl, rfl⟩

theorem exec_ldB_of_le {s : State} (x : RegIdx) (h : effectiveAddress s.I 2 ≤ 0xFFF) :
    exec (.ldB x) s = .next (s.setMem (s.mem.writeBytes s.I.toNat (bcdDigits (s.reg x)))).advance :=
  withRange_of_last_le h

theorem exec_storeRegs_of_le {s : State} {x : RegIdx} (h : effectiveAddress s.I x.val ≤ 0xFFF) :
    exec (.storeRegs x) s = .next (s.setMem (s.mem.writeBytes s.I.toNat (s.regRange x))).advance :=
  withRange_of_last_le h

theorem exec_loadRegs_of_le {s : State} {x : RegIdx} (h : effectiveAddress s.I x.val ≤ 0xFFF) :
    exec (.loadRegs x) s = .next (s.loadRegRange x).advance := withRange_of_last_le h

/-! ## The statements -/

/-- Settles O24: the range check by I + 2, the three digits as numbers, and no other byte. -/
theorem decimalDigitsAreStored : Obligations.DecimalDigitsAreStored := by
  unfold Obligations.DecimalDigitsAreStored
  refine fun s x => ⟨fun hle => ⟨_, exec_ldB_of_le x hle, ?_, ?_, ?_, fun a ha => ?_, rfl⟩, withRange_of_last_gt⟩
  · exact Memory.read_writeBytes_bcdDigits s.mem s.I.toNat (s.reg x) (k := 0) (by decide)
  · exact Memory.read_writeBytes_bcdDigits s.mem s.I.toNat (s.reg x) (k := 1) (by decide)
  · exact Memory.read_writeBytes_bcdDigits s.mem s.I.toNat (s.reg x) (k := 2) (by decide)
  · exact Memory.read_writeBytes_of_ne fun k hk => ha k (Nat.le_of_lt_succ hk)

/-- Settles O25: the range check by I + X, each register at its place, and no other byte. -/
theorem registersAreStored : Obligations.RegistersAreStored := by
  unfold Obligations.RegistersAreStored
  refine fun s x => ⟨fun hle => ⟨_, exec_storeRegs_of_le hle, fun k hk => ?_, fun a ha => ?_, rfl⟩,
    withRange_of_last_gt⟩
  · exact Memory.read_writeBytes_regRange s.mem s.I.toNat s hk
  · refine Memory.read_writeBytes_of_ne fun k hk => ?_
    rw [regRange_length] at hk
    exact ha ⟨k, by omega⟩ (Nat.le_of_lt_succ hk)

/-- Settles O26: the range check by I + X, and a register is loaded or kept as its number is up to or above X. -/
theorem registersAreLoaded : Obligations.RegistersAreLoaded := by
  unfold Obligations.RegistersAreLoaded
  refine fun s x => ⟨fun hle => ⟨_, exec_loadRegs_of_le hle, fun k hk => ?_, fun k hk => ?_, rfl⟩,
    withRange_of_last_gt⟩
  · rw [State.advance_reg, State.loadRegRange_reg]
    exact if_pos hk
  · rw [State.advance_reg, State.loadRegRange_reg]
    exact if_neg (Nat.not_le_of_gt hk)

/-- Settles O27: FX55 leaves I, so FX65 passes the same range check and reads the bytes that were stored. -/
theorem storedRegistersLoadBack : Obligations.StoredRegistersLoadBack := by
  unfold Obligations.StoredRegistersLoadBack
  intro s t x v h
  obtain ⟨hrange, rfl⟩ := execStoreRegs_next h
  refine ⟨_, withRange_of_inMemory hrange, fun k hk => ?_, rfl, rfl⟩
  rw [State.advance_reg, State.loadRegRange_reg, if_pos (show k.val ≤ x.val from hk)]
  exact Memory.read_writeBytes_regRange s.mem s.I.toNat s hk

/-- Settles O22: both write I alone, the immediate or the sum modulo 65536. -/
theorem indexLoadAndAdd : Obligations.IndexLoadAndAdd := by
  unfold Obligations.IndexLoadAndAdd
  refine fun s nnn x => ⟨?_, ?_⟩
  · obtain ⟨t, ht, hI, hframe⟩ := exec_of_setI (i := .ldI nnn) (s := s) rfl
    exact ⟨t, ht, by rw [hI, zext12_toNat], hframe⟩
  · obtain ⟨t, ht, hI, hframe⟩ := exec_of_setI (i := .addI x) (s := s) rfl
    exact ⟨t, ht, by rw [hI, indexSum_toNat], hframe⟩

end Sys2Proof.Machine
end

section
/-! PROOFS. Random number and display (spec/43_random_display.md R110 to R113). -/

namespace Sys2Proof.Machine

variable {s t : State} {x y : RegIdx} {n : Fin 16} {row : Fin 32} {col : Fin 64}

/-! ## The random byte (R110) -/

theorem State.drawRnd_of_cons {b : Byte} {bs : List Byte} (h : s.host.rnds = b :: bs) :
    s.drawRnd = (b, s.setHost { s.host with rnds := bs }) := by
  rw [State.drawRnd, h]

theorem State.drawRnd_of_nil (h : s.host.rnds = []) :
    s.drawRnd = (Config.randomByte s.host.draws, s.setHost { s.host with draws := s.host.draws + 1 }) := by
  rw [State.drawRnd, h]

/-- CXKK when the draw gives `b` and leaves `host`. -/
theorem exec_rnd_of_drawRnd {b : Byte} {host : HostSide} (kk : Byte) (h : s.drawRnd = (b, s.setHost host)) :
    ∃ t, exec (.rnd x kk) s = .next t ∧
      (∀ k, k < 8 → (t.reg x).getLsbD k = (b.getLsbD k && kk.getLsbD k)) ∧ (∀ r, r ≠ x → t.reg r = s.reg r) ∧
      t = { s with V := t.V, pc := s.pc + 2, host := host } := by
  have hexec : exec (.rnd x kk) s = .next ((s.setHost host).setReg x (b &&& kk)).advance := by
    show execRnd x kk s = _
    rw [execRnd, h]
  refine ⟨_, hexec, fun k _ => ?_, fun r hr => ?_, rfl⟩
  · rw [State.advance_reg, State.setReg_reg_same, BitVec.getLsbD_and]
  · rw [State.advance_reg, State.setReg_reg_ne _ hr, State.setHost_reg]

/-! ## The range check of DXYN (R112, decision D29) -/

theorem exec_drw_of_le (x y : RegIdx) (h : n.val = 0 ∨ s.I.toNat + n.val - 1 ≤ 0xFFF) :
    ∃ t, exec (.drw x y n) s = .next t :=
  ⟨_, withRange_of_inMemory (rangeInMemory_eq_true.mpr (by omega))⟩

theorem exec_drw_of_gt (x y : RegIdx) (hn : n.val > 0) (h : s.I.toNat + n.val - 1 > 0xFFF) :
    exec (.drw x y n) s = .fault .memoryAddressOutOfRange := by
  refine withRange_of_outside (Bool.eq_false_iff.mpr fun hr => ?_)
  have := rangeInMemory_eq_true.mp hr
  omega

/-! ## The pixels of the sprite -/

theorem rowCovers_eq_true {b : Byte} {x0 k : Nat} :
    rowCovers b x0 k col = true ↔ ∃ c, c < k ∧ b.getLsbD (7 - c) = true ∧ col.val = (x0 + c) % 64 := by
  simp only [rowCovers, List.any_eq_true, List.mem_range, Bool.and_eq_true, beq_iff_eq, Fin.ext_iff, Fin.val_ofNat]

theorem covers_eq_true {vwrap : Bool} {m : Memory} {base x0 y0 k : Nat} (hy : y0 < 32) (hk : k < 16) :
    covers vwrap m base x0 y0 k row col = true ↔
      ∃ r, r < k ∧ (row.val = y0 + r ∨ vwrap = true ∧ row.val + 32 = y0 + r) ∧
        rowCovers (m.read (base + r)) x0 8 col = true := by
  simp only [covers, List.any_eq_true, List.mem_range, Bool.and_eq_true, beq_iff_eq]
  refine exists_congr fun r => and_congr_right fun hr => and_congr_left fun _ => ?_
  exact visibleRow_eq_some (by omega)

theorem spriteRow_lt (v : Byte) : spriteRow v < 32 := Nat.mod_lt _ (by decide)

/-- What the drawing of DXYN flips is what the sprite covers in the words of R112. -/
theorem covers_eq_true_iff_spriteCovers {vwrap : Bool} :
    covers vwrap s.mem (effectiveAddress s.I 0) (spriteColumn (s.reg x)) (spriteRow (s.reg y)) n.val row col = true ↔
      spriteCovers vwrap s x y n row col := by
  rw [covers_eq_true (spriteRow_lt _) n.isLt]
  simp only [rowCovers_eq_true]
  constructor
  · rintro ⟨r, hr, hrow, c, hc, hbit, hcol⟩
    exact ⟨r, c, hr, hc, hbit, hcol, hrow⟩
  · rintro ⟨r, c, hr, hc, hbit, hcol, hrow⟩
    exact ⟨r, hr, hrow, c, hc, hbit, hcol⟩

/-- What a sprite covers depends on memory, I and the two coordinates alone. -/
theorem spriteCovers_congr {vwrap : Bool} (hmem : t.mem = s.mem) (hI : t.I = s.I) (hx : t.reg x = s.reg x)
    (hy : t.reg y = s.reg y) : spriteCovers vwrap t x y n row col ↔ spriteCovers vwrap s x y n row col := by
  rw [spriteCovers, spriteCovers, hmem, hI, hx, hy]

/-! ## What a DXYN that goes on gives (R112) -/

section
variable (h : exec (.drw x y n) s = .next t)
include h

theorem exec_drw_pixel (row : Fin 32) (col : Fin 64) : Display.pixel t.disp row col = true ↔
    ¬ (Display.pixel s.disp row col = true ↔ spriteCovers Config.vwrap s x y n row col) := by
  obtain ⟨-, drawn, rfl, rfl⟩ := execDrw_next h
  rw [State.advance_disp, State.setFlag_disp, State.setDisp_disp,
    (drawSprite_spec _ _ _ _ _ _ _ (spriteRow_lt _) (Nat.le_of_lt_succ n.isLt)).1, ← covers_eq_true_iff_spriteCovers,
    Bool.xor_iff_ne, ne_eq, Bool.eq_iff_iff]

/-- VF is the byte of a flag that says whether a covered pixel was set. -/
theorem exec_drw_flag : ∃ hit, t.reg 15 = flagByte hit ∧
    (hit = true ↔ ∃ row col, spriteCovers Config.vwrap s x y n row col ∧ Display.pixel s.disp row col = true) := by
  obtain ⟨-, drawn, rfl, rfl⟩ := execDrw_next h
  refine ⟨_, State.setFlag_reg_vf _ _, ?_⟩
  rw [(drawSprite_spec _ _ _ _ _ _ _ (spriteRow_lt _) (Nat.le_of_lt_succ n.isLt)).2]
  simp only [covers_eq_true_iff_spriteCovers]

theorem exec_drw_flag_eq_one
    (hset : ∃ row col, Display.pixel s.disp row col = true ∧ spriteCovers Config.vwrap s x y n row col) : t.reg 15 = 1 := by
  obtain ⟨hit, hflag, hhit⟩ := exec_drw_flag h
  obtain ⟨row, col, hpixel, hcovers⟩ := hset
  rw [hflag, hhit.mpr ⟨row, col, hcovers, hpixel⟩, flagByte_true]

theorem exec_drw_flag_eq_zero
    (hclear : ∀ row col, spriteCovers Config.vwrap s x y n row col → Display.pixel s.disp row col = false) :
    t.reg 15 = 0 := by
  obtain ⟨hit, hflag, hhit⟩ := exec_drw_flag h
  have hmiss : hit = false := Bool.eq_false_iff.mpr fun hset => by
    obtain ⟨row, col, hcovers, hpixel⟩ := hhit.mp hset
    exact Bool.eq_false_iff.mp (hclear row col hcovers) hpixel
  rw [hflag, hmiss, flagByte_false]

theorem exec_drw_reg_ne {r : RegIdx} (hr : r ≠ 15) : t.reg r = s.reg r := by
  obtain ⟨-, drawn, -, rfl⟩ := execDrw_next h
  rw [State.advance_reg, State.setFlag_reg, if_neg hr, State.setDisp_reg]

theorem exec_drw_frame : t = { s with V := t.V, disp := t.disp, pc := s.pc + 2 } := by
  obtain ⟨-, drawn, -, rfl⟩ := execDrw_next h
  rfl

/-- The next DXYN with the same coordinates covers the same pixels. -/
theorem exec_drw_keeps_spriteCovers (hx : t.reg x = s.reg x) (hy : t.reg y = s.reg y) :
    spriteCovers Config.vwrap t x y n row col ↔ spriteCovers Config.vwrap s x y n row col := by
  obtain ⟨-, drawn, -, rfl⟩ := execDrw_next h
  exact spriteCovers_congr rfl rfl hx hy

end

/-! ## The statements -/

/-- Settles O30: the byte is the first of the host's supply, or with no supply the free value. -/
theorem randomByteIsMasked : Obligations.RandomByteIsMasked := by
  unfold Obligations.RandomByteIsMasked
  intro s x kk
  cases hrnds : s.host.rnds with
  | cons b bs =>
    obtain ⟨t, ht, hmask, hregs, hframe⟩ := exec_rnd_of_drawRnd kk (State.drawRnd_of_cons hrnds)
    exact ⟨t, b, ht, hmask, hregs, .inl ⟨bs, rfl, hframe⟩⟩
  | nil =>
    obtain ⟨t, ht, hmask, hregs, hframe⟩ := exec_rnd_of_drawRnd kk (State.drawRnd_of_nil hrnds)
    exact ⟨t, _, ht, hmask, hregs, .inr ⟨rfl, rfl, hframe⟩⟩

/-- Settles O31: the display it leaves is the clear one. -/
theorem clearTurnsEveryPixelOff : Obligations.ClearTurnsEveryPixelOff := by
  unfold Obligations.ClearTurnsEveryPixelOff
  exact fun s => ⟨(s.setDisp Display.clear).advance, rfl, Display.pixel_clear, rfl⟩

/-- Settles O32: the range check by its last address, then the pixels, the flag and the frame of a draw that goes on. -/
theorem drawFlipsThePixelsOfTheSprite : Obligations.DrawFlipsThePixelsOfTheSprite := by
  unfold Obligations.DrawFlipsThePixelsOfTheSprite
  refine fun s x y n => ⟨fun hrange => ?_, exec_drw_of_gt x y⟩
  obtain ⟨t, ht⟩ := exec_drw_of_le x y hrange
  exact ⟨t, ht, exec_drw_pixel ht, exec_drw_flag_eq_one ht, exec_drw_flag_eq_zero ht, fun _ => exec_drw_reg_ne ht,
    exec_drw_frame ht⟩

/-- Settles O33: the second draw covers the same pixels, so it flips back what the first one flipped; a pixel it covers was
flipped on by the first when the display was empty. -/
theorem drawingTwiceRestoresTheDisplay : Obligations.DrawingTwiceRestoresTheDisplay := by
  unfold Obligations.DrawingTwiceRestoresTheDisplay
  intro s t u x y n hst hx hy htu
  have hcovers : ∀ row col, spriteCovers Config.vwrap t x y n row col ↔ spriteCovers Config.vwrap s x y n row col :=
    fun _ _ => exec_drw_keeps_spriteCovers hst hx hy
  refine ⟨Display.ext_pixel fun row col => ?_, fun hsome hempty => ⟨?_, ?_⟩, fun hnone => ⟨?_, ?_⟩⟩
  · rw [Bool.eq_iff_iff, exec_drw_pixel htu, exec_drw_pixel hst, hcovers]
    tauto
  · exact exec_drw_flag_eq_zero hst fun row col _ => hempty row col
  · obtain ⟨row, col, hcov⟩ := hsome
    refine exec_drw_flag_eq_one htu ⟨row, col, ?_, (hcovers row col).mpr hcov⟩
    rw [exec_drw_pixel hst, hempty row col]
    exact fun hiff => Bool.false_ne_true (hiff.mpr hcov)
  · exact exec_drw_flag_eq_zero hst fun row col hcov => absurd hcov (hnone row col)
  · exact exec_drw_flag_eq_zero htu fun row col hcov => absurd ((hcovers row col).mp hcov) (hnone row col)

end Sys2Proof.Machine
end

section
/-! PROOFS. Keypad and timer instructions (spec/44_keypad_timers.md R120 to R126). -/

namespace Sys2Proof.Machine

/-! ## Keys as numbers -/

theorem keyPressed_eq_true {keys : Word} {v : Byte} :
    keyPressed keys v = true ↔ ∃ k : Key, v.toNat = k.val ∧ keys.getLsbD k.val = true := by
  rw [← isPressed_eq_keyPressed]
  simp only [isPressed, List.any_eq_true, List.mem_finRange, true_and, Bool.and_eq_true, beq_iff_eq]

theorem keyPressed_eq_false {keys : Word} {v : Byte} :
    keyPressed keys v = false ↔ ∀ k : Key, v.toNat = k.val → keys.getLsbD k.val = false := by
  simp only [← Bool.not_eq_true, keyPressed_eq_true, not_exists, not_and]

theorem keyByte_toNat (k : Key) : (keyByte k).toNat = k.val :=
  Nat.mod_eq_of_lt (by omega)

/-! ## What the instructions give -/

variable {s : State} {t : RegIdx}

theorem State.skipIf_true (s : State) : s.skipIf true = { s with pc := s.pc + 4 } := rfl

theorem State.skipIf_false (s : State) : s.skipIf false = { s with pc := s.pc + 2 } := rfl

theorem exec_skp (x : RegIdx) (s : State) :
    exec (.skp x) s = .next (s.skipIf (keyPressed s.keys (s.reg x))) := rfl

theorem exec_sknp (x : RegIdx) (s : State) :
    exec (.sknp x) s = .next (s.skipIf (!keyPressed s.keys (s.reg x))) := rfl

theorem exec_ldDTVx (x : RegIdx) (s : State) :
    exec (.ldDTVx x) s = .next { s with DT := s.reg x, pc := s.pc + 2 } := rfl

theorem exec_ldSTVx (x : RegIdx) (s : State) :
    exec (.ldSTVx x) s = .next { s with ST := s.reg x, pc := s.pc + 2 } := rfl

theorem exec_ldVxK (x : RegIdx) (s : State) : exec (.ldVxK x) s = .next { s with run := .awaitingKey x } := rfl

/-! ## A waiting cycle (R124) -/

theorem completeWait_of_no_key (h : s.keys = 0) : completeWait t s = .next s := by
  rw [completeWait, pickKey_eq_none.mpr h]

/-- With a key pressed the second half of FX0A does not stay in the wait. -/
theorem completeWait_of_key (h : s.keys ≠ 0) : ∃ k : Key, s.keys.getLsbD k.val = true ∧
    completeWait t s = .next ((s.setReg t (keyByte k)).advance.setRun .running) := by
  obtain ⟨u, hu⟩ := completeWait_exists_next t s
  obtain ⟨hzero, -⟩ | ⟨k, hk, rfl⟩ := completeWait_next hu
  · exact absurd hzero h
  · exact ⟨k, hk, hu⟩

/-- The unplanned step of a wait is its second half, marked as begun; nothing is fetched. -/
theorem step_of_waiting {u : State} (hagenda : s.host.agenda = []) (hrun : s.run = .awaitingKey t)
    (hwait : completeWait t s = .next u) : step s = .next (u.setPhase .started) := by
  rw [step_of_agenda_nil hagenda, performCycle_of_runCycle_next ((runCycle_of_waiting hrun).trans hwait)]

theorem step_of_waiting_no_key (hagenda : s.host.agenda = []) (hrun : s.run = .awaitingKey t) (hkeys : s.keys = 0) :
    step s = .next (s.setPhase .started) :=
  step_of_waiting hagenda hrun (completeWait_of_no_key hkeys)

/-! ## The statements -/

/-- Settles O34: the condition both skips test holds exactly when V[X] is the number of a pressed key; for a value
above 0x0F there is no such key (decision D20). -/
theorem keySkipsTestTheLatch : Obligations.KeySkipsTestTheLatch := by
  unfold Obligations.KeySkipsTestTheLatch
  refine fun s x => ⟨fun hpressed => ?_, fun hreleased => ?_⟩
  · rw [exec_skp, exec_sknp, keyPressed_eq_true.mpr hpressed, Bool.not_true, State.skipIf_true, State.skipIf_false]
    exact ⟨rfl, rfl⟩
  · rw [exec_skp, exec_sknp, keyPressed_eq_false.mpr hreleased, Bool.not_false, State.skipIf_true, State.skipIf_false]
    exact ⟨rfl, rfl⟩

/-- Settles O37: by the level of KEYS; the key that ends the wait is a member of it. -/
theorem keyWaitEndsWithAPressedKey : Obligations.KeyWaitEndsWithAPressedKey := by
  unfold Obligations.KeyWaitEndsWithAPressedKey
  refine fun s t hagenda hrun => ⟨step_of_waiting_no_key hagenda hrun, fun hkeys => ?_⟩
  obtain ⟨k, hk, hwait⟩ := completeWait_of_key (t := t) hkeys
  refine ⟨_, k, step_of_waiting hagenda hrun hwait, hk, ?_, fun r hr => ?_, rfl⟩
  · rw [State.setPhase_reg, State.setRun_reg, State.advance_reg, State.setReg_reg_same, keyByte_toNat]
  · rw [State.setPhase_reg, State.setRun_reg, State.advance_reg, State.setReg_reg_ne _ hr]

/-- Settles O38: once the history has begun, the waiting state is a fixed point of the step. -/
theorem theKeyWaitHasNoTimeout : Obligations.TheKeyWaitHasNoTimeout := by
  unfold Obligations.TheKeyWaitHasNoTimeout
  intro n s t hagenda hphase hrun hkeys
  have hstep : step s = .next s := by
    rw [step_of_waiting_no_key hagenda hrun hkeys, State.setPhase_self hphase]
  exact run_of_step_fixed hstep n

/-- Settles O35: FX07 writes V[X] alone, FX15 and FX18 their timer. -/
theorem timerInstructionsMoveTheCount : Obligations.TimerInstructionsMoveTheCount := by
  unfold Obligations.TimerInstructionsMoveTheCount
  exact fun s x => ⟨exec_of_setReg rfl, exec_ldDTVx x s, exec_ldSTVx x s⟩

/-- Settles O36: the first half of FX0A reads no key. -/
theorem keyWaitBegins : Obligations.KeyWaitBegins := by
  unfold Obligations.KeyWaitBegins
  exact fun s x => exec_ldVxK x s

end Sys2Proof.Machine
end

section
/-! PROOFS. Every operation but `skip_instruction` keeps the bounds on pc and on the stack entries
(spec/45_host_operations.md R137; spec/40_control_flow.md R71). -/

namespace Sys2Proof.Machine

/-- From a fetchable address the advance does not wrap (spec/10_state.md R16). -/
theorem add_two_toNat_of_le {a : Word} (h : a.toNat ≤ 0xFFE) : (a + 2).toNat = a.toNat + 2 := by
  bv_omega

theorem add_four_toNat_of_le {a : Word} (h : a.toNat ≤ 0xFFE) : (a + 4).toNat = a.toNat + 4 := by
  bv_omega

/-- The largest new pc is that of BNNN, 0xFF + 0xFFF; a skip from 0xFFE and a return stay below it. -/
theorem tabledPc_le {s : State} (i : Instr) (hs : s.PcBound) (hpc : s.pc.toNat ≤ 0xFFE) :
    (tabledPc i s).toNat ≤ 0x10FE := by
  have h2 := add_two_toNat_of_le hpc
  have h4 := add_four_toNat_of_le hpc
  cases i with
  | jp nnn | call nnn => rw [tabledPc, ← zext12_eq_ofNat, zext12_toNat]; omega
  | jpV0 nnn => rw [tabledPc, ← offsetTarget_eq_ofNat, offsetTarget_toNat]; omega
  | ret =>
    obtain hnil | ⟨l, a, hl⟩ := List.eq_nil_or_concat' s.stack
    · rw [tabledPc, hnil]; exact hs.pc
    · obtain ⟨-, hle⟩ := hs.entries a (by simp [hl])
      rw [tabledPc, hl, List.getLastD_concat]; omega
  | seImm | sneImm | seReg | sneReg | skp | sknp => dsimp only [tabledPc]; split <;> omega
  | ldVxK x => exact hs.pc
  | _ => exact h2.le.trans (by omega)

theorem exec_pc_le {i : Instr} {s t : State} (hs : s.PcBound) (hpc : s.pc.toNat ≤ 0xFFE) (h : exec i s = .next t) :
    t.pc.toNat ≤ 0x10FE :=
  everyInstructionMovesPcAsTabled i s t h ▸ tabledPc_le i hs hpc

/-- An instruction pushes nothing but the address after its own. -/
theorem exec_entries_bound {i : Instr} {s t : State} (hs : s.PcBound) (hpc : s.pc.toNat ≤ 0xFFE)
    (h : exec i s = .next t) : ∀ a ∈ t.stack, 0x0002 ≤ a.toNat ∧ a.toNat ≤ 0x1000 := by
  intro a ha
  obtain heq | ⟨-, heq⟩ | ⟨nnn, -, -, heq⟩ := exec_stack_cases h
  · exact hs.entries a (heq ▸ ha)
  · exact hs.entries a (heq ▸ List.mem_append_left _ ha)
  · rw [heq, List.mem_append, List.mem_singleton] at ha
    obtain hold | rfl := ha
    · exact hs.entries a hold
    · rw [add_two_toNat_of_le hpc]; omega

/-- The bounds read pc, stack and run state only. -/
theorem State.PcBound.of_same {s t : State} (hs : s.PcBound) (hpc : t.pc = s.pc) (hstack : t.stack = s.stack)
    (hrun : t.run = s.run) : t.PcBound where
  pc := hpc ▸ hs.pc
  entries := hstack ▸ hs.entries
  waiting r hr := hpc ▸ hs.waiting r (hrun ▸ hr)

/-- In a running machine the clause about a wait is void. -/
theorem State.PcBound.of_running {s : State} (hpc : s.pc.toNat ≤ 0x10FE)
    (hstack : ∀ a ∈ s.stack, 0x0002 ≤ a.toNat ∧ a.toNat ≤ 0x1000) (hr : s.run = .running) : s.PcBound where
  pc := hpc
  entries := hstack
  waiting t ht := by rw [hr] at ht; cases ht

/-- FX0A waits where it was fetched; every other instruction leaves the machine running. -/
theorem exec_keeps_pcBound {i : Instr} {s t : State} (hs : s.PcBound) (hr : s.run = .running)
    (hpc : s.pc.toNat ≤ 0xFFE) (h : exec i s = .next t) : t.PcBound := by
  obtain hrun | ⟨x, -, rfl⟩ := exec_run_cases h
  · exact .of_running (exec_pc_le hs hpc h) (exec_entries_bound hs hpc h) (hrun.trans hr)
  · exact ⟨hs.pc, hs.entries, fun _ _ => hpc⟩

/-- A wait that ends moves pc past an FX0A at a fetchable address. -/
theorem completeWait_keeps_pcBound {r : RegIdx} {s t : State} (hs : s.PcBound) (hr : s.run = .awaitingKey r)
    (h : completeWait r s = .next t) : t.PcBound := by
  obtain ⟨-, rfl⟩ | ⟨k, -, rfl⟩ := completeWait_next h
  · exact hs
  · have hpc := hs.waiting r hr
    have hnew : (s.pc + 2).toNat ≤ 0x10FE := by rw [add_two_toNat_of_le hpc]; omega
    exact .of_running hnew hs.entries rfl

/-- A cycle executes at a fetchable address, completes a wait, or faults and moves nothing. -/
theorem performCycle_keeps_pcBound {s t : State} (hs : s.PcBound) (h : performCycle s = .next t) : t.PcBound := by
  obtain ⟨u, hu, rfl⟩ | ⟨f, -, -, rfl⟩ := performCycle_next h
  · have hbound : u.PcBound := by
      obtain ⟨r, hr, hwait⟩ | ⟨hr, w, i, hw, -, hexec⟩ := runCycle_next hu
      · exact completeWait_keeps_pcBound hs hr hwait
      · obtain ⟨hpc, -⟩ := fetchWord_eq_some hw
        exact exec_keeps_pcBound hs hr hpc hexec
    exact hbound.of_same rfl rfl rfl
  · exact hs.of_same rfl rfl rfl

/-- Settles O57: a cycle by its own lemma; load, tick, keys and snapshot leave pc, stack and run state. -/
theorem everyStepButSkipKeepsPcInBounds : Obligations.EveryStepButSkipKeepsPcInBounds := by
  unfold Obligations.EveryStepButSkipKeepsPcInBounds
  intro s t hs hskip h
  obtain ⟨s', hc, ⟨-, rfl⟩ | ⟨ops, -, rfl⟩⟩ | ⟨bytes, ops, -, hl⟩ | ⟨ops, -, rfl⟩ | ⟨pressed, ops, -, rfl⟩ |
    ⟨ops, -, rfl⟩ | ⟨ops, ha, -⟩ := step_next h
  · exact performCycle_keeps_pcBound hs hc
  · have hplanned : (s.setAgenda ops).PcBound := hs.of_same rfl rfl rfl
    exact performCycle_keeps_pcBound hplanned hc
  · obtain ⟨-, -, -, rfl⟩ := performLoad_next hl
    exact hs.of_same rfl rfl rfl
  · exact hs.of_same rfl rfl rfl
  · exact hs.of_same rfl rfl rfl
  · exact hs.of_same rfl rfl rfl
  · exact absurd ha (hskip ops)

end Sys2Proof.Machine
end

section
/-! PROOFS. How an instruction and a cycle can end (spec/45_host_operations.md R131; spec/60_exceptions.md R140). -/

namespace Sys2Proof.Machine

/-- What a cycle may end in: the next state, or one of the four per-cycle faults, which are all faults but that of
`load_program`. `exec_cycleEnd` and `runCycle_cycleEnd` tie it to the model. -/
inductive CycleEnd : Result → Prop
  | next (t : State) : CycleEnd (.next t)
  | fault {f : Fault} (hf : f ≠ .romTooLarge) : CycleEnd (.fault f)

theorem withRange_cycleEnd {s : State} {n : Nat} {k : Result} (hk : CycleEnd k) : CycleEnd (s.withRange n k) := by
  cases hr : rangeInMemory s.I n with
  | true => rwa [withRange_of_inMemory hr]
  | false => rw [withRange_of_outside hr]; exact .fault (by decide)

theorem popToPc_cycleEnd (s : State) : CycleEnd s.popToPc := by
  obtain hnil | ⟨l, a, hl⟩ := List.eq_nil_or_concat' s.stack
  · rw [popToPc_empty hnil]; exact .fault (by decide)
  · rw [popToPc_concat hl]; exact .next _

theorem callTo_cycleEnd (s : State) (target : Word) : CycleEnd (s.callTo target) := by
  obtain hroom | hfull := Nat.lt_or_ge s.stack.length Config.stackDepth
  · rw [callTo_of_room hroom]; exact .next _
  · rw [callTo_of_full hfull]; exact .fault (by decide)

/-- Only a return, a call and the four transfers of memory can end otherwise than in the next state. -/
theorem exec_cycleEnd (i : Instr) (s : State) : CycleEnd (exec i s) := by
  cases i with
  | ret => exact popToPc_cycleEnd s
  | call nnn => exact callTo_cycleEnd s _
  | ldB | storeRegs | loadRegs | drw => exact withRange_cycleEnd (.next _)
  | _ => exact .next _

theorem runCycle_cycleEnd (s : State) : CycleEnd (runCycle s) := by
  unfold runCycle
  split
  · rename_i r _
    obtain ⟨u, hu⟩ := completeWait_exists_next r s
    rw [hu]; exact .next u
  · split
    · exact .fault (by decide)
    · split
      · exact .fault (by simp)
      · exact exec_cycleEnd _ s

/-- With nothing on the agenda a host does not go on after a fault (spec/60_exceptions.md R148). -/
theorem performCycle_of_runCycle_fault {s : State} {f : Fault} (ha : s.host.agenda = []) (h : runCycle s = .fault f) :
    performCycle s = .fault f := by simp [performCycle, deliverFault, h, ha]

theorem step_cycleEnd {s : State} (ha : s.host.agenda = []) : CycleEnd (step s) := by
  rw [step_of_agenda_nil ha]
  cases hcycle : runCycle s with
  | next t => rw [performCycle_of_runCycle_next hcycle]; exact .next _
  | fault f => rw [performCycle_of_runCycle_fault ha hcycle]; exact hcycle ▸ runCycle_cycleEnd s
  | refused r => have hend := runCycle_cycleEnd s; rw [hcycle] at hend; cases hend

theorem safeRun_one_of_step_next {s t : State} (h : step s = .next t) : SafeRun 1 s :=
  ⟨t, run_succ_of_step_next (M := core) h 0⟩

/-- Settles O47: neither an instruction nor a cycle ends in a refusal or in the fault of `load_program`. -/
theorem aCycleGoesOnOrFaults : Obligations.ACycleGoesOnOrFaults := by
  unfold Obligations.ACycleGoesOnOrFaults
  constructor
  · intro i s r h
    have hend := exec_cycleEnd i s
    rw [h] at hend
    cases hend
  · intro s ha
    have hend := step_cycleEnd ha
    cases hstep : step s with
    | next t => exact .inl (safeRun_one_of_step_next hstep)
    | refused r => rw [hstep] at hend; cases hend
    | fault f =>
      cases f with
      | memoryAddressOutOfRange => exact .inr (.inl rfl)
      | unsupportedOpcode w => exact .inr (.inr (.inl ⟨w, rfl⟩))
      | stackOverflow => exact .inr (.inr (.inr (.inl rfl)))
      | stackUnderflow => exact .inr (.inr (.inr (.inr rfl)))
      | romTooLarge =>
        rw [hstep] at hend
        cases hend with
        | fault hne => exact absurd rfl hne

end Sys2Proof.Machine
end

section
/-! PROOFS. The key latch and the snapshot (spec/45_host_operations.md R134, R136). -/

namespace Sys2Proof.Machine

/-- Element y * 64 + x lies in row y and column x. -/
theorem Display.snapshot_rowMajor (d : Display) (y : Fin 32) (x : Fin 64) (k : Fin 2048)
    (hk : k.val = y.val * 64 + x.val) : d.snapshot[k] = Display.pixel d y x := by
  have hrow : k.val / 64 = y.val := by omega
  have hcol : k.val % 64 = x.val := by omega
  rw [Fin.getElem_fin, Display.snapshot_getElem]
  congr 1
  · exact Fin.ext hrow
  · exact Fin.ext hcol

theorem step_of_displaySnapshot {s : State} {ops : List HostOp} (ha : s.host.agenda = .displaySnapshot :: ops) :
    step s = .next ((s.setAgenda ops).record (.pixels s.disp.snapshot)).settle := step_of_agenda_cons ha

theorem step_of_setKeys {s : State} {pressed : Word} {ops : List HostOp} (ha : s.host.agenda = .setKeys pressed :: ops) :
    step s = .next (setKeys pressed (s.setAgenda ops)).settle := step_of_agenda_cons ha

/-- Settles O43: the snapshot is row-major, and recording it touches the host's side only. -/
theorem theSnapshotIsTheDisplay : Obligations.TheSnapshotIsTheDisplay := by
  unfold Obligations.TheSnapshotIsTheDisplay
  exact fun s ops ha => ⟨s.disp.snapshot, s.disp.snapshot_rowMajor, step_of_displaySnapshot ha⟩

/-- Settles O42: the latch is the one field of the machine that the operation writes. -/
theorem setKeysReplacesTheLatch : Obligations.SetKeysReplacesTheLatch := by
  unfold Obligations.SetKeysReplacesTheLatch
  exact fun s pressed ops ha => step_of_setKeys ha

end Sys2Proof.Machine
end

section
/-! PROOFS. The timer tick and the beeper (spec/60_exceptions.md R150, R152). -/

namespace Sys2Proof.Machine

/-- One tick of a timer: down by one, floored at 0. -/
def countDown (v : Byte) : Byte := if v = 0 then 0 else v - 1

/-- The state after a tick that leaves `ops` on the agenda. `step_of_tickTimers` ties it to the step. -/
def State.afterTick (s : State) (ops : List HostOp) : State :=
  { s with DT := countDown s.DT, ST := countDown s.ST, host := { s.host with
    agenda := ops, results := s.host.results ++ [.beep (s.ST == 1)], phase := s.host.phase.settle } }

/-- A tick works in every run state. -/
theorem step_of_tickTimers {s : State} {ops : List HostOp} (ha : s.host.agenda = .tickTimers :: ops) :
    step s = .next (s.afterTick ops) := step_of_agenda_cons ha

theorem countDown_toNat (v : Byte) : (countDown v).toNat = v.toNat - 1 := by
  unfold countDown
  split
  case isTrue hzero => rw [hzero]; rfl
  case isFalse hpos => bv_omega

theorem State.afterTick_DT_toNat (s : State) (ops : List HostOp) : (s.afterTick ops).DT.toNat = s.DT.toNat - 1 :=
  countDown_toNat s.DT

theorem State.afterTick_ST_toNat (s : State) (ops : List HostOp) : (s.afterTick ops).ST.toNat = s.ST.toNat - 1 :=
  countDown_toNat s.ST

/-- The beeper trigger is read before the count. -/
theorem State.afterTick_results (s : State) (ops : List HostOp) :
    (s.afterTick ops).host.results = s.host.results ++ [.beep (decide (s.ST.toNat = 1))] := by
  have htrigger : (s.ST == 1) = decide (s.ST.toNat = 1) := by
    rw [beq_eq_decide]
    exact decide_eq_decide.mpr (BitVec.toNat_inj (y := 1)).symm
  rw [← htrigger]
  rfl

theorem Phase.settle_settle (p : Phase) : p.settle.settle = p.settle := by
  cases p <;> rfl

theorem State.afterTick_settle_phase (s : State) (ops : List HostOp) :
    (s.afterTick ops).host.phase.settle = s.host.phase.settle := s.host.phase.settle_settle

/-- Settles O40: the two timers count down each by itself. -/
theorem aTickDecrementsBothTimers : Obligations.ATickDecrementsBothTimers := by
  unfold Obligations.ATickDecrementsBothTimers
  exact fun s ops ha => ⟨s.afterTick ops, step_of_tickTimers ha, s.afterTick_DT_toNat ops, s.afterTick_ST_toNat ops,
    s.afterTick_results ops, rfl⟩

/-- Settles O41, by induction on the count: the last tick gives the beep; an earlier one gives none and leaves one less to
count. -/
theorem aSoundTimerBeepsOnceWithItsLastTick : Obligations.ASoundTimerBeepsOnceWithItsLastTick := by
  unfold Obligations.ASoundTimerBeepsOnceWithItsLastTick
  intro n
  induction n with
  | zero =>
    intro s ops hcount ha
    have hzero : (s.afterTick ops).ST = 0 := BitVec.eq_of_toNat_eq (by rw [State.afterTick_ST_toNat, hcount]; rfl)
    refine ⟨s.afterTick ops, run_succ_of_step_next (M := core) (step_of_tickTimers ha) 0, ?_, s.afterTick_DT_toNat ops, ?_⟩
    · simp [State.afterTick_results, hcount]
    · rw [← hzero]; rfl
  | succ n ih =>
    intro s ops hcount ha
    have hstep := step_of_tickTimers (ops := List.replicate (n + 1) .tickTimers ++ ops) ha
    have hnext : (s.afterTick (List.replicate (n + 1) .tickTimers ++ ops)).ST.toNat = n + 1 := by
      rw [State.afterTick_ST_toNat, hcount, Nat.add_sub_cancel]
    obtain ⟨t, hrun, hresults, hDT, ht⟩ := ih _ ops hnext rfl
    refine ⟨t, (run_succ_of_step_next (M := core) hstep (n + 1)).trans hrun, ?_, ?_, ?_⟩
    · simp [hresults, State.afterTick_results, hcount, List.replicate_succ]
    · rw [hDT, State.afterTick_DT_toNat]; omega
    · rwa [State.afterTick_settle_phase] at ht

end Sys2Proof.Machine
end

section
/-! PROOFS. Which instructions fault (spec/60_exceptions.md R140, R141, R143, R144). -/

namespace Sys2Proof.Machine

/-! ## When the shared operations fault -/

theorem withRange_fault {s t : State} {n : Nat} {f : Fault} (h : s.withRange n (.next t) = .fault f) :
    f = .memoryAddressOutOfRange ∧ 0 < n ∧ 0x1000 < s.I.toNat + n := by
  cases hr : rangeInMemory s.I n with
  | true => rw [withRange_of_inMemory hr] at h; cases h
  | false =>
    rw [withRange_of_outside hr] at h
    cases h
    have hout := mt rangeInMemory_eq_true.mpr (Bool.eq_false_iff.mp hr)
    exact ⟨rfl, by omega, by omega⟩

theorem popToPc_fault {s : State} {f : Fault} (h : s.popToPc = .fault f) : s.stack = [] ∧ f = .stackUnderflow := by
  obtain hnil | ⟨l, a, hl⟩ := List.eq_nil_or_concat' s.stack
  · rw [popToPc_empty hnil] at h; cases h; exact ⟨hnil, rfl⟩
  · rw [popToPc_concat hl] at h; cases h

theorem callTo_fault {s : State} {a : Word} {f : Fault} (h : s.callTo a = .fault f) :
    Config.stackDepth ≤ s.stack.length ∧ f = .stackOverflow := by
  obtain hroom | hfull := Nat.lt_or_ge s.stack.length Config.stackDepth
  · rw [callTo_of_room hroom] at h; cases h
  · rw [callTo_of_full hfull] at h; cases h; exact ⟨hfull, rfl⟩

/-! ## The statement -/

/-- Settles O46. From left to right by the instruction: only a return, a call and the four transfers of memory can fault. From
right to left by the row of the table. -/
theorem instructionsFaultExactlyAsTabled : Obligations.InstructionsFaultExactlyAsTabled := by
  unfold Obligations.InstructionsFaultExactlyAsTabled
  intro i s f
  constructor
  · intro h
    cases i with
    | ret => obtain ⟨hnil, rfl⟩ := popToPc_fault h; exact .inl ⟨rfl, hnil, rfl⟩
    | call nnn => obtain ⟨hfull, rfl⟩ := callTo_fault h; exact .inr (.inl ⟨nnn, rfl, hfull, rfl⟩)
    | ldB x =>
      obtain ⟨rfl, -, hout⟩ := withRange_fault h
      exact .inr (.inr ⟨rfl, .inl ⟨x, rfl, by omega⟩⟩)
    | storeRegs x =>
      obtain ⟨rfl, -, hout⟩ := withRange_fault h
      exact .inr (.inr ⟨rfl, .inr (.inl ⟨x, .inl rfl, by omega⟩)⟩)
    | loadRegs x =>
      obtain ⟨rfl, -, hout⟩ := withRange_fault h
      exact .inr (.inr ⟨rfl, .inr (.inl ⟨x, .inr rfl, by omega⟩)⟩)
    | drw x y n =>
      obtain ⟨rfl, hrows, hout⟩ := withRange_fault h
      exact .inr (.inr ⟨rfl, .inr (.inr ⟨x, y, n, rfl, hrows, by omega⟩)⟩)
    | _ => cases h
  · rintro (⟨rfl, hnil, rfl⟩ | ⟨nnn, rfl, hfull, rfl⟩ |
      ⟨rfl, ⟨x, rfl, hout⟩ | ⟨x, rfl | rfl, hout⟩ | ⟨x, y, n, rfl, hrows, hout⟩⟩)
    · exact popToPc_empty hnil
    · exact callTo_of_full hfull
    · exact withRange_of_last_gt hout
    · exact withRange_of_last_gt hout
    · exact withRange_of_last_gt hout
    · exact exec_drw_of_gt x y hrows hout

end Sys2Proof.Machine
end

section
/-! PROOFS. What a step does to the machine, said once over every kind of operation; from it, which steps change KEYS and
the timers (spec/60_exceptions.md R151; spec/10_state.md R18, R20). -/

namespace Sys2Proof.Machine

/-! ## Steps that are cycles -/

/-- The step is a `run_cycle`, planned or not: the words of `State.Executes`. -/
def State.Cycles (s : State) : Prop := s.host.agenda = [] ∨ ∃ ops, s.host.agenda = .runCycle :: ops

theorem not_cycles_of_agenda {s : State} {op : HostOp} {ops : List HostOp} (ha : s.host.agenda = op :: ops)
    (hop : op ≠ .runCycle) : ¬ s.Cycles := by
  rintro (hnil | ⟨ops', hcycle⟩)
  · rw [ha] at hnil; cases hnil
  · rw [ha] at hcycle; cases hcycle; exact hop rfl

/-- Planned or not, the cycle runs with what then remains of the agenda. -/
theorem step_of_cycles {s : State} (hc : s.Cycles) : step s = performCycle (s.setAgenda s.host.agenda.tail) := by
  obtain ha | ⟨ops, ha⟩ := hc
  · have hself : s.setAgenda s.host.agenda.tail = s := by rw [ha, List.tail_nil, ← ha]; rfl
    rw [hself, step_of_agenda_nil ha]
  · rw [ha, step_of_agenda_cons ha]; rfl

/-! ## What a step does -/

/-- What a step that goes on does to the machine: by its kind, the condition under which it goes on and the pieces of state that
may change; `g` is the host's side after it. `step_effect` ties it to the step. -/
inductive StepEffect (s : State) : State → Prop
  | executes {i u} (hi : s.Executes i) (hexec : exec i s = .next u) (g) : StepEffect s (u.setHost g)
  | waitStays {r} (hc : s.Cycles) (hr : s.run = .awaitingKey r) (hkeys : s.keys = 0) :
      StepEffect s { s with host := { s.host with agenda := s.host.agenda.tail, phase := .started } }
  | waitEnds {r} (hc : s.Cycles) (hr : s.run = .awaitingKey r) (hkeys : s.keys ≠ 0) (V pc g) :
      StepEffect s { s with V := V, pc := pc, run := .running, host := g }
  | cycleFaults (hr : s.run = .running) (g) : StepEffect s { s with host := g }
  | loads {bytes ops} (ha : s.host.agenda = .loadProgram bytes :: ops) (hr : s.run = .running) (mem g) :
      StepEffect s { s with mem := mem, host := g }
  | ticks {ops} (ha : s.host.agenda = .tickTimers :: ops) (DT ST g) : StepEffect s { s with DT := DT, ST := ST, host := g }
  | setsKeys {pressed ops} (ha : s.host.agenda = .setKeys pressed :: ops) (g) :
      StepEffect s { s with keys := pressed, host := g }
  | snapshots {ops} (ha : s.host.agenda = .displaySnapshot :: ops) (g) : StepEffect s { s with host := g }
  | skips {ops} (ha : s.host.agenda = .skipInstruction :: ops) (hphase : s.host.phase = .faulted) (pc g) :
      StepEffect s { s with pc := pc, host := g }

theorem cycle_effect {s t : State} (hc : s.Cycles) (h : performCycle (s.setAgenda s.host.agenda.tail) = .next t) :
    StepEffect s t := by
  obtain ⟨u, hu, rfl⟩ | ⟨f, hf, -, rfl⟩ := performCycle_next h
  · obtain ⟨r, hr, hwait⟩ | ⟨hr, w, i, hw, hd, hexec⟩ := runCycle_next hu
    · obtain ⟨hkeys, rfl⟩ | ⟨k, hk, rfl⟩ := completeWait_next hwait
      · exact .waitStays hc hr hkeys
      · refine .waitEnds hc hr (fun hzero => ?_) _ _ _
        rw [State.setAgenda_keys, hzero] at hk
        simp at hk
    · obtain ⟨v, g, hexec', rfl⟩ := exec_of_exec_setAgenda hexec
      exact .executes ⟨hc, hr, w, hw, hd⟩ hexec' _
  · have hr : (s.setAgenda s.host.agenda.tail).run = .running := running_of_runCycle_fault hf
    exact StepEffect.cycleFaults (s := s) hr _

theorem step_effect {s t : State} (h : step s = .next t) : StepEffect s t := by
  by_cases hc : s.Cycles
  · exact cycle_effect hc (step_of_cycles hc ▸ h)
  obtain ⟨s', -, ⟨ha, -⟩ | ⟨ops, ha, -⟩⟩ | ⟨bytes, ops, ha, hl⟩ | ⟨ops, ha, rfl⟩ | ⟨pressed, ops, ha, rfl⟩ |
    ⟨ops, ha, rfl⟩ | ⟨ops, ha, hk⟩ := step_next h
  · exact absurd (.inl ha) hc
  · exact absurd (.inr ⟨ops, ha⟩) hc
  · obtain ⟨-, hr, -, rfl⟩ := performLoad_next hl
    exact .loads ha hr _ _
  · exact .ticks ha _ _ _
  · exact .setsKeys ha _
  · exact .snapshots ha _
  · obtain ⟨hphase, rfl⟩ := performSkip_next hk
    exact .skips ha hphase _ _

/-! ## KEYS and the timers -/

section
variable {s t : State} (h : step s = .next t)
include h

theorem step_keys_changed (hne : t.keys ≠ s.keys) : ∃ ops, s.host.agenda = .setKeys t.keys :: ops := by
  cases step_effect h with
  | setsKeys ha => exact ⟨_, ha⟩
  | executes _ hexec => exact absurd (exec_keeps_keys hexec) hne
  | _ => exact absurd rfl hne

theorem step_DT_changed (hne : t.DT ≠ s.DT) :
    (∃ ops, s.host.agenda = .tickTimers :: ops) ∨ ∃ x, s.Executes (.ldDTVx x) := by
  cases step_effect h with
  | ticks ha => exact .inl ⟨_, ha⟩
  | executes hi hexec => obtain ⟨x, rfl⟩ := exec_DT_changed hexec hne; exact .inr ⟨x, hi⟩
  | _ => exact absurd rfl hne

theorem step_ST_changed (hne : t.ST ≠ s.ST) :
    (∃ ops, s.host.agenda = .tickTimers :: ops) ∨ ∃ x, s.Executes (.ldSTVx x) := by
  cases step_effect h with
  | ticks ha => exact .inl ⟨_, ha⟩
  | executes hi hexec => obtain ⟨x, rfl⟩ := exec_ST_changed hexec hne; exact .inr ⟨x, hi⟩
  | _ => exact absurd rfl hne

end

/-- Settles O52, field by field. -/
theorem keysAndTimersChangeOnlyAsDescribed : Obligations.KeysAndTimersChangeOnlyAsDescribed := by
  unfold Obligations.KeysAndTimersChangeOnlyAsDescribed
  exact fun s t h => ⟨step_keys_changed h, step_DT_changed h, step_ST_changed h⟩

end Sys2Proof.Machine
end

section
/-! PROOFS. How the key wait is entered and left, and what can happen in it (spec/60_exceptions.md R154). -/

namespace Sys2Proof.Machine

section
variable {s t : State} {r r' : RegIdx}

theorem State.Executes.not_waiting {i : Instr} (hi : s.Executes i) (hr : s.run = .awaitingKey r) : False := by
  obtain ⟨-, hrunning, -⟩ := hi
  rw [hr] at hrunning
  cases hrunning

/-- Only FX0A enters a wait. -/
theorem step_enters_wait (h : step s = .next t) (hr : s.run = .running) (ht : t.run = .awaitingKey r) :
    s.Executes (.ldVxK r) := by
  have hne : t.run ≠ s.run := by rw [hr, ht]; exact nofun
  cases step_effect h with
  | executes hi hexec =>
    obtain ⟨x, rfl, hx⟩ := exec_run_changed hexec hne
    cases hx.symm.trans ht
    exact hi
  | waitEnds => cases ht
  | _ => exact absurd rfl hne

/-- Only a cycle that finds a key pressed ends a wait. -/
theorem step_leaves_wait (h : step s = .next t) (hr : s.run = .awaitingKey r) (ht : t.run = .running) :
    s.keys ≠ 0 ∧ s.Cycles := by
  have hne : t.run ≠ s.run := by rw [hr, ht]; exact nofun
  cases step_effect h with
  | executes hi => exact (hi.not_waiting hr).elim
  | waitEnds hc _ hkeys => exact ⟨hkeys, hc⟩
  | _ => exact absurd rfl hne

/-- A step that stays in a wait stays in the same one and leaves the machine alone but for what ticks and `set_keys` write; a
cycle that stays has found no key. The invariant rules out `skip_instruction`. -/
theorem step_stays_in_wait (hinv : s.Inv) (h : step s = .next t) (hr : s.run = .awaitingKey r)
    (ht : t.run = .awaitingKey r') : r' = r ∧ t = { s with DT := t.DT, ST := t.ST, keys := t.keys, host := t.host } ∧
      (s.Cycles → s.keys = 0 ∧
        t = { s with host := { s.host with agenda := s.host.agenda.tail, phase := .started } }) := by
  have hsame : t.run = s.run → r' = r := fun hrun => RunState.awaitingKey.inj (ht.symm.trans (hrun.trans hr))
  cases step_effect h with
  | executes hi => exact (hi.not_waiting hr).elim
  | waitStays hc _ hkeys => exact ⟨hsame rfl, rfl, fun _ => ⟨hkeys, rfl⟩⟩
  | waitEnds => cases ht
  | cycleFaults hrunning => rw [hr] at hrunning; cases hrunning
  | loads _ hrunning => rw [hr] at hrunning; cases hrunning
  | ticks ha => exact ⟨hsame rfl, rfl, fun hc => absurd hc (not_cycles_of_agenda ha nofun)⟩
  | setsKeys ha => exact ⟨hsame rfl, rfl, fun hc => absurd hc (not_cycles_of_agenda ha nofun)⟩
  | snapshots ha => exact ⟨hsame rfl, rfl, fun hc => absurd hc (not_cycles_of_agenda ha nofun)⟩
  | skips _ hphase =>
    obtain ⟨hstarted, -⟩ := hinv.waiting r hr
    rw [hphase] at hstarted
    cases hstarted

theorem step_waiting_cycle_goes_on (hr : s.run = .awaitingKey r) (hc : s.Cycles) : ∃ t, step s = .next t := by
  have hr' : (s.setAgenda s.host.agenda.tail).run = .awaitingKey r := hr
  obtain ⟨u, hwait⟩ := completeWait_exists_next r (s.setAgenda s.host.agenda.tail)
  have hcycle := (runCycle_of_waiting hr').trans hwait
  exact ⟨_, (step_of_cycles hc).trans (performCycle_of_runCycle_next hcycle)⟩

theorem performLoad_of_not_running {bytes : List Byte} {s : State} (hr : s.run ≠ .running) :
    performLoad bytes s = .refused .loadOutOfOrder := by simp [performLoad, hr]

theorem performSkip_ne_fault (s : State) (f : Fault) : performSkip s ≠ .fault f := by
  unfold performSkip
  split <;> exact nofun

/-- In a wait a cycle goes on, a load is refused, and the other operations never fault. -/
theorem step_waiting_ne_fault (hr : s.run = .awaitingKey r) (f : Fault) : step s ≠ .fault f := by
  by_cases hc : s.Cycles
  · obtain ⟨t, ht⟩ := step_waiting_cycle_goes_on hr hc
    rw [ht]; exact nofun
  obtain ⟨op, ops, ha⟩ := List.exists_cons_of_ne_nil fun hnil => hc (.inl hnil)
  rw [step_of_agenda_cons ha]
  cases op with
  | runCycle => exact absurd (.inr ⟨ops, ha⟩) hc
  | loadProgram bytes =>
    have hwaiting : (s.setAgenda ops).run ≠ .running := by rw [State.setAgenda_run, hr]; exact nofun
    rw [perform, performLoad_of_not_running hwaiting]
    exact nofun
  | skipInstruction => exact performSkip_ne_fault _ f
  | tickTimers | setKeys | displaySnapshot => exact nofun

end

/-- Settles O39: entering, leaving and staying by what a step does; no fault and no stop in the wait by the operation. -/
theorem theWaitIsEnteredAndLeftAsDescribed : Obligations.TheWaitIsEnteredAndLeftAsDescribed := by
  unfold Obligations.TheWaitIsEnteredAndLeftAsDescribed
  constructor
  · exact fun s t hinv h => ⟨fun r => step_enters_wait h, fun r => step_leaves_wait h,
      fun r r' => step_stays_in_wait hinv h⟩
  · exact fun s r hr => ⟨step_waiting_ne_fault hr, step_waiting_cycle_goes_on hr⟩

end Sys2Proof.Machine
end

section
/-! PROOFS. Decoding and encoding are inverse to each other (spec/30_encoding.md R51, R52, R54, R58). -/

namespace Sys2Proof

/-! ## The major opcodes with more literal digits (R54) -/

section
variable {w : Word}

theorem decode_of_op0 (hop : opField w = 0x0#4) : decode w = decode0 w := by simp [decode, hop]

theorem decode_of_op5 (hop : opField w = 0x5#4) : decode w =
    if nField w = 0x0#4 then .ok (.seReg (xField w) (yField w)) else .error (.unsupportedOpcode w) := by
  simp [decode, hop]

theorem decode_of_op8 (hop : opField w = 0x8#4) : decode w = decode8 w := by simp [decode, hop]

theorem decode_of_op9 (hop : opField w = 0x9#4) : decode w =
    if nField w = 0x0#4 then .ok (.sneReg (xField w) (yField w)) else .error (.unsupportedOpcode w) := by
  simp [decode, hop]

theorem decode_of_opE (hop : opField w = 0xE#4) : decode w = decodeE w := by simp [decode, hop]

theorem decode_of_opF (hop : opField w = 0xF#4) : decode w = decodeF w := by simp [decode, hop]

end

/-- Settles O1, by the formats of R51: the decoder finds the literal digits that the encoder wrote, and each operand in its
field. -/
theorem decodingAnEncodedInstructionGivesItBack : Obligations.DecodingAnEncodedInstructionGivesItBack := by
  unfold Obligations.DecodingAnEncodedInstructionGivesItBack
  intro i
  cases i with
  | cls | ret => rfl
  | jp | call | ldI | jpV0 => simp [encode, decode]
  | seImm | sneImm | ldImm | addImm | rnd => simp [encode, decode]
  | seReg | sneReg | drw => simp [encode, decode]
  | ldReg | orReg | andReg | xorReg | addReg | subReg | shr | subnReg | shl =>
    refine (decode_of_op8 (opField_formatR ..)).trans ?_
    simp [decode8]
  | skp | sknp =>
    refine (decode_of_opE (opField_formatI ..)).trans ?_
    simp [decodeE]
  | ldVxDT | ldVxK | ldDTVx | ldSTVx | addI | ldF | ldB | storeRegs | loadRegs =>
    refine (decode_of_opF (opField_formatI ..)).trans ?_
    simp [decodeF]

/-! ## A word put together again from its fields, when the literal ones are known -/

section
variable {w : Word} {op : Nibble} {i : Instr}

theorem formatA_of_opField (hop : opField w = op) : formatA op (nnnField w) = w := hop ▸ formatA_fields w

theorem formatI_of_opField (hop : opField w = op) : formatI op (xField w) (kkField w) = w := hop ▸ formatI_fields w

theorem formatI_of_kkField {kk : Byte} (hop : opField w = op) (hkk : kkField w = kk) :
    formatI op (xField w) kk = w := hkk ▸ formatI_of_opField hop

theorem formatR_of_nField {n : Nibble} (hop : opField w = op) (hn : nField w = n) :
    formatR op (xField w) (yField w) n = w := by
  subst hop hn
  exact formatR_fields w

/-! ## Encoding what was decoded, by the major opcode -/

/-- The major opcodes of formats A, I and D: the first digit is the only literal one. -/
theorem encode_of_decode_opcode_alone
    (hop : opField w ∈ [0x1#4, 0x2#4, 0x3#4, 0x4#4, 0x6#4, 0x7#4, 0xA#4, 0xB#4, 0xC#4, 0xD#4])
    (h : decode w = .ok i) : encode i = w := by
  simp only [List.mem_cons, List.not_mem_nil, or_false] at hop
  obtain hop | hop | hop | hop | hop | hop | hop | hop | hop | hop := hop
  all_goals
    simp only [decode, hop, BitVec.reduceEq, ↓reduceIte, Except.ok.injEq] at h
    subst h
  · exact formatA_of_opField hop
  · exact formatA_of_opField hop
  · exact formatI_of_opField hop
  · exact formatI_of_opField hop
  · exact formatI_of_opField hop
  · exact formatI_of_opField hop
  · exact formatA_of_opField hop
  · exact formatA_of_opField hop
  · exact formatI_of_opField hop
  · exact formatR_of_nField hop (nibbleOf_regOf (nField w)).symm

theorem encode_of_decode0 (h : decode0 w = .ok i) : encode i = w := by
  unfold decode0 at h
  split_ifs at h with hcls hret
  · cases h; exact hcls.symm
  · cases h; exact hret.symm

/-- Major opcodes 0x5 and 0x9. -/
theorem encode_of_zeroCode {j : Instr}
    (h : (if nField w = 0x0#4 then .ok j else .error (.unsupportedOpcode w)) = (.ok i : Except DecodeError Instr))
    (hj : nField w = 0x0#4 → encode j = w) : encode i = w := by
  split_ifs at h with hn
  cases h
  exact hj hn

theorem encode_of_decode8 (hop : opField w = 0x8#4) (h : decode8 w = .ok i) : encode i = w := by
  unfold decode8 at h
  split_ifs at h
  all_goals
    rename_i hn
    cases h
    exact formatR_of_nField hop hn

theorem encode_of_decodeE (hop : opField w = 0xE#4) (h : decodeE w = .ok i) : encode i = w := by
  unfold decodeE at h
  split_ifs at h
  all_goals
    rename_i hkk
    cases h
    exact formatI_of_kkField hop hkk

theorem encode_of_decodeF (hop : opField w = 0xF#4) (h : decodeF w = .ok i) : encode i = w := by
  unfold decodeF at h
  split_ifs at h
  all_goals
    rename_i hkk
    cases h
    exact formatI_of_kkField hop hkk

end

/-- Settles O2, by the branches of R54: each literal digit was tested and every other one is an operand of the instruction,
so the fields of the word are all there to put it together again. -/
theorem encodingADecodedWordGivesItBack : Obligations.EncodingADecodedWordGivesItBack := by
  unfold Obligations.EncodingADecodedWordGivesItBack
  intro w i h
  obtain hop | hop | hop | hop | hop | hop | hop := op_cases (opField w)
  · exact encode_of_decode_opcode_alone hop h
  · exact encode_of_decode0 (decode_of_op0 hop ▸ h)
  · exact encode_of_zeroCode ((decode_of_op5 hop).symm.trans h) fun hn => formatR_of_nField hop hn
  · exact encode_of_decode8 hop (decode_of_op8 hop ▸ h)
  · exact encode_of_zeroCode ((decode_of_op9 hop).symm.trans h) fun hn => formatR_of_nField hop hn
  · exact encode_of_decodeE hop (decode_of_opE hop ▸ h)
  · exact encode_of_decodeF hop (decode_of_opF hop ▸ h)

/-- Settles O5: a word of each format, evaluated. -/
theorem someWordsOfEachFormatDecode : Obligations.SomeWordsOfEachFormatDecode := by
  unfold Obligations.SomeWordsOfEachFormatDecode
  decide

end Sys2Proof
end

section
/-! PROOFS. The six groups of illegal words, as numbers, and the fault of a cycle that fetches one (spec/30_encoding.md R57;
spec/60_exceptions.md R142). -/

namespace Sys2Proof

/-! ## The refusals of the decoder -/

theorem decode_eq_error_iff {w : Word} : decode w = .error (.unsupportedOpcode w) ↔ InRefusedGroup w := by
  obtain ⟨i, hi, hrow⟩ | ⟨herr, hgroup⟩ := decode_answer w
  · have hlegal : ¬ InRefusedGroup w := fun hgroup => not_selects_of_refused hgroup (rowOf_mem_opcodeTable i) hrow
    simp [hi, hlegal]
  · simp [herr, hgroup]

theorem unsupportedOpcode_of_decode_error {w : Word} {e : DecodeError} (h : decode w = .error e) :
    e = .unsupportedOpcode w := by
  obtain ⟨i, hi, -⟩ | ⟨herr, -⟩ := decode_answer w
  · cases h.symm.trans hi
  · exact Except.error.inj (h.symm.trans herr)

/-! ## Fields as numbers -/

theorem opField_toNat (w : Word) : (opField w).toNat = w.toNat / 4096 := by
  rw [opField, BitVec.extractLsb'_toNat, Nat.shiftRight_eq_div_pow]
  omega

theorem nField_toNat (w : Word) : (nField w).toNat = w.toNat % 16 := BitVec.extractLsb'_toNat ..

theorem kkField_toNat (w : Word) : (kkField w).toNat = w.toNat % 256 := BitVec.extractLsb'_toNat ..

theorem opField_eq_iff {w : Word} {op : Nibble} : opField w = op ↔ w.toNat / 4096 = op.toNat := by
  rw [← BitVec.toNat_inj, opField_toNat]

theorem mem_iff_toNat_mem_map {n : Nat} {v : BitVec n} {l : List (BitVec n)} :
    v ∈ l ↔ v.toNat ∈ l.map BitVec.toNat :=
  (List.mem_map_of_injective fun _ _ => BitVec.eq_of_toNat_eq).symm

theorem nField_ne_zero_iff {w : Word} : nField w ≠ 0x0#4 ↔ w.toNat % 16 ≠ 0 := by
  rw [← nField_toNat, Ne, ← BitVec.toNat_inj]; rfl

theorem kkField_notMem_iff {w : Word} {l : List Byte} : kkField w ∉ l ↔ w.toNat % 256 ∉ l.map BitVec.toNat := by
  rw [← kkField_toNat, mem_iff_toNat_mem_map]

theorem notMem_functionCodes8_iff :
    ∀ n : Nibble, n ∉ functionCodes8 ↔ n.toNat ∈ [0x8, 0x9, 0xA, 0xB, 0xC, 0xD, 0xF] := by decide

theorem op0_group_iff {w : Word} : opField w = 0x0#4 ∧ w ∉ [0x00E0#16, 0x00EE#16] ↔
    w.toNat ≤ 0x0FFF ∧ w.toNat ≠ 0x00E0 ∧ w.toNat ≠ 0x00EE := by
  have hop : opField w = 0x0#4 ↔ w.toNat ≤ 0x0FFF := by
    rw [opField_eq_iff, BitVec.toNat_ofNat]
    omega
  rw [hop, mem_iff_toNat_mem_map]
  simp

/-- The six groups of R57, read as numbers, are those of the decoder's refusals. -/
theorem inRefusedGroup_iff {w : Word} : InRefusedGroup w ↔
    (w.toNat ≤ 0x0FFF ∧ w.toNat ≠ 0x00E0 ∧ w.toNat ≠ 0x00EE) ∨
    (w.toNat / 4096 = 0x5 ∧ w.toNat % 16 ≠ 0) ∨
    (w.toNat / 4096 = 0x8 ∧ w.toNat % 16 ∈ [0x8, 0x9, 0xA, 0xB, 0xC, 0xD, 0xF]) ∨
    (w.toNat / 4096 = 0x9 ∧ w.toNat % 16 ≠ 0) ∨
    (w.toNat / 4096 = 0xE ∧ w.toNat % 256 ∉ [0x9E, 0xA1]) ∨
    (w.toNat / 4096 = 0xF ∧ w.toNat % 256 ∉ [0x07, 0x0A, 0x15, 0x18, 0x1E, 0x29, 0x33, 0x55, 0x65]) := by
  rw [InRefusedGroup, op0_group_iff, notMem_functionCodes8_iff, nField_toNat]
  simp only [opField_eq_iff, nField_ne_zero_iff, kkField_notMem_iff]
  rfl

end Sys2Proof

namespace Sys2Proof.Machine

/-! ## The unplanned step is one cycle -/

section
variable {s t : State} {w : Word}

theorem runCycle_of_unfetchable (hr : s.run = .running) (hpc : 0xFFE < s.pc.toNat) :
    runCycle s = .fault .memoryAddressOutOfRange := by simp [runCycle, hr, fetchWord_of_gt hpc, raise]

theorem runCycle_of_undecodable {e : DecodeError} (hr : s.run = .running) (hw : s.fetchWord = some w)
    (he : decode w = .error e) : runCycle s = .fault (.unsupportedOpcode w) := by simp [runCycle, hr, hw, he, raise]

theorem step_of_runCycle_next (ha : s.host.agenda = []) (h : runCycle s = .next t) :
    step s = .next (t.setPhase .started) := by
  rw [step_of_agenda_nil ha, performCycle_of_runCycle_next h]

theorem step_of_runCycle_fault {f : Fault} (ha : s.host.agenda = []) (h : runCycle s = .fault f) :
    step s = .fault f := by
  rw [step_of_agenda_nil ha, performCycle_of_runCycle_fault ha h]

end

/-- Settles O4: the decoder refuses exactly the groups of `InRefusedGroup`, each with its word, and the cycle passes the word
on. -/
theorem illegalWordsAreTheListedGroups : Obligations.IllegalWordsAreTheListedGroups := by
  unfold Obligations.IllegalWordsAreTheListedGroups
  refine ⟨fun w => ?_, fun w e => ?_, fun s w ha hr hw hd => ?_⟩
  · exact decode_eq_error_iff.trans inRefusedGroup_iff
  · exact unsupportedOpcode_of_decode_error
  · exact step_of_runCycle_fault ha (runCycle_of_undecodable hr hw hd)

end Sys2Proof.Machine
end

section
/-! PROOFS. The cycle, unplanned and planned, the host's course after a fault, and the word placed for fetch
(spec/45_host_operations.md section 2; spec/60_exceptions.md R145, R148). -/

namespace Sys2Proof.Machine

/-- The fetch as a number: big-endian. -/
theorem fetchWord_of_toNat {s : State} {w : Word} (hpc : s.pc.toNat ≤ 0xFFE)
    (hw : w.toNat = 256 * (s.mem.read s.pc.toNat).toNat + (s.mem.read (s.pc.toNat + 1)).toNat) :
    s.fetchWord = some w := by
  rw [fetchWord_of_le hpc]
  exact congrArg some (BitVec.eq_of_toNat_eq ((wordOfBytes_toNat _ _).trans hw.symm))

/-- Settles O6: the wait, then the three stages of R130 in order; each gives what the cycle ends in. -/
theorem aStepFetchesDecodesAndExecutes : Obligations.AStepFetchesDecodesAndExecutes := by
  unfold Obligations.AStepFetchesDecodesAndExecutes
  refine fun s ha => ⟨fun t hr => ?_, fun hr hpc => ?_, fun hr hpc w hw => ⟨fun e he => ?_, fun i hi => ?_⟩⟩
  · obtain ⟨u, hu⟩ := completeWait_exists_next t s
    exact ⟨u, hu, step_of_waiting ha hr hu⟩
  · exact step_of_runCycle_fault ha (runCycle_of_unfetchable hr hpc)
  · exact step_of_runCycle_fault ha (runCycle_of_undecodable hr (fetchWord_of_toNat hpc hw) he)
  · have hcycle : runCycle s = exec i s := runCycle_of_executes hr (fetchWord_of_toNat hpc hw) hi
    exact ⟨fun t ht => step_of_runCycle_next ha (hcycle.trans ht),
      fun f hf => step_of_runCycle_fault ha (hcycle.trans hf)⟩

/-! ## A cycle does not see the agenda -/

section
variable {s t : State} {f : Fault} {ops : List HostOp}

theorem runCycle_keeps_host (h : runCycle s = .next t) :
    t.host = { s.host with rnds := t.host.rnds, draws := t.host.draws } := by
  have hsame : runCycle s = withHostOf s.host (runCycle s) := runCycle_setHost s s.host rfl rfl
  rw [h] at hsame
  exact congrArg State.host (Host.Outcome.next.inj hsame)

theorem runCycle_setAgenda_of_next (h : runCycle s = .next t) (ops : List HostOp) :
    runCycle (s.setAgenda ops) = .next (t.setAgenda ops) := by
  have hcomm : runCycle (s.setAgenda ops) = withHostOf { s.host with agenda := ops } (runCycle s) :=
    runCycle_setHost s _ rfl rfl
  rw [hcomm, h, State.setAgenda, runCycle_keeps_host h]
  rfl

theorem runCycle_setAgenda_of_fault (h : runCycle s = .fault f) (ops : List HostOp) :
    runCycle (s.setAgenda ops) = .fault f := by
  have hcomm : runCycle (s.setAgenda ops) = withHostOf { s.host with agenda := ops } (runCycle s) :=
    runCycle_setHost s _ rfl rfl
  rw [hcomm, h]
  rfl

/-- The unplanned step shows what the cycle ended in: with an empty agenda no fault is gone on from. -/
theorem runCycle_of_step_next (ha : s.host.agenda = []) (h : step s = .next t) :
    ∃ u, runCycle s = .next u ∧ t = u.setPhase .started := by
  rw [step_of_agenda_nil ha] at h
  obtain hgoes | ⟨f, -, ⟨op, ops, hop, -⟩, -⟩ := performCycle_next h
  · exact hgoes
  · cases ha.symm.trans hop

theorem runCycle_of_step_fault (ha : s.host.agenda = []) (h : step s = .fault f) : runCycle s = .fault f := by
  cases hcycle : runCycle s with
  | next t => cases h.symm.trans (step_of_runCycle_next ha hcycle)
  | fault g => rw [← h, step_of_runCycle_fault ha hcycle]
  | refused r => have hend := runCycle_cycleEnd s; rw [hcycle] at hend; cases hend

/-! ## The planned cycle -/

theorem step_of_planned_cycle : step (s.setAgenda (.runCycle :: ops)) = performCycle (s.setAgenda ops) :=
  step_of_agenda_cons (s := s.setAgenda (.runCycle :: ops)) rfl

/-- After a fault the host may skip the word: the cycle has changed nothing of the machine. -/
theorem step_of_fault_then_skip (h : runCycle s = .fault f) :
    step (s.setAgenda (.runCycle :: .skipInstruction :: ops)) =
      .next (((s.setAgenda (.skipInstruction :: ops)).record (.fault f)).setPhase .faulted) := by
  rw [step_of_planned_cycle, performCycle, runCycle_setAgenda_of_fault h]
  rfl

/-- After a fault the host must not run another cycle. -/
theorem step_of_fault_then_cycle (h : runCycle s = .fault f) :
    step (s.setAgenda (.runCycle :: .runCycle :: ops)) = .fault f := by
  rw [step_of_planned_cycle, performCycle, runCycle_setAgenda_of_fault h]
  rfl

/-! ## skip_instruction (R137, R162) -/

theorem skipInstruction_pc_toNat (s : State) : (skipInstruction s).pc.toNat = (s.pc.toNat + 2) % 65536 :=
  BitVec.toNat_add ..

theorem step_of_skip_after_fault (ha : s.host.agenda = .skipInstruction :: ops) (hphase : s.host.phase = .faulted) :
    step s = .next ((skipInstruction (s.setAgenda ops)).setPhase .started) := by
  rw [step_of_agenda_cons ha, perform, performSkip, State.setAgenda_host_phase, if_pos hphase, State.settle]
  have hsettle : (skipInstruction (s.setAgenda ops)).host.phase.settle = .started := congrArg Phase.settle hphase
  rw [hsettle]

theorem step_of_skip_without_fault (ha : s.host.agenda = .skipInstruction :: ops) (hphase : s.host.phase ≠ .faulted) :
    step s = .refused .skipWithoutFault := by
  rw [step_of_agenda_cons ha, perform, performSkip, State.setAgenda_host_phase, if_neg hphase]

/-! ## A word placed for fetch -/

theorem State.fetchPlace_le (s : State) : s.fetchPlace.toNat ≤ 0xFFE := by
  unfold State.fetchPlace
  split
  case isTrue hpc => exact Nat.le_of_succ_le_succ hpc
  case isFalse => decide

/-- The two bytes of a placed word are fetched as that word. -/
theorem fetchWord_placeFetchWord (s : State) (w : Word) : (s.placeFetchWord w).fetchWord = some w := by
  have hhi : (s.placeFetchWord w).mem.read s.fetchPlace.toNat = hiByte w :=
    Memory.read_writeBytes_at s.mem s.fetchPlace.toNat (vs := [hiByte w, loByte w]) Nat.zero_lt_two
  have hlo : (s.placeFetchWord w).mem.read (s.fetchPlace.toNat + 1) = loByte w :=
    Memory.read_writeBytes_at s.mem s.fetchPlace.toNat (vs := [hiByte w, loByte w]) Nat.one_lt_two
  have hfetch : (s.placeFetchWord w).fetchWord = some (wordOfBytes ((s.placeFetchWord w).mem.read s.fetchPlace.toNat)
    ((s.placeFetchWord w).mem.read (s.fetchPlace.toNat + 1))) := fetchWord_of_le s.fetchPlace_le
  rw [hfetch, hhi, hlo, wordOfBytes_hiByte_loByte]

theorem decode_of_decodeTableWord {nbits w : Nat} {i : Instr} (h : decodeTableWord nbits w = some i) :
    decode (tableWord nbits w) = .ok i := by
  rw [decodeTableWord_eq] at h
  cases hd : decode (tableWord nbits w) with
  | ok j => rw [hd] at h; cases h; rfl
  | error e => rw [hd] at h; cases h

end

/-! ## The statements -/

/-- Settles O7: the cycle does not see the agenda, and carrying it out only marks the history as begun. -/
theorem aPlannedCycleIsTheSameCycle : Obligations.APlannedCycleIsTheSameCycle := by
  unfold Obligations.APlannedCycleIsTheSameCycle
  intro s t ops ha h
  obtain ⟨u, hu, rfl⟩ := runCycle_of_step_next ha h
  exact step_of_planned_cycle.trans (performCycle_of_runCycle_next (runCycle_setAgenda_of_next hu ops))

/-- Settles O8: the planned cycle faults as the unplanned one did; then by the host's next operation. -/
theorem aFaultChangesNothingAndTheHostMaySkip : Obligations.AFaultChangesNothingAndTheHostMaySkip := by
  unfold Obligations.AFaultChangesNothingAndTheHostMaySkip
  intro s f ops ha h
  have hfault := runCycle_of_step_fault ha h
  refine ⟨⟨_, _, step_of_fault_then_skip hfault, rfl, step_of_skip_after_fault rfl rfl, ?_, rfl⟩,
    step_of_fault_then_cycle hfault⟩
  exact skipInstruction_pc_toNat _

/-- Settles O9: the placed word is fetched at pc, with an empty agenda and no wait. -/
theorem aWordPlacedForFetchRunsNext : Obligations.AWordPlacedForFetchRunsNext := by
  unfold Obligations.AWordPlacedForFetchRunsNext
  intro s w i h
  have hfetch := fetchWord_placeFetchWord s (tableWord 16 w)
  have hdecode := decode_of_decodeTableWord h
  refine ⟨⟨.inl rfl, rfl, _, hfetch, hdecode⟩, fun t ht => ?_⟩
  exact step_of_runCycle_next rfl ((runCycle_of_executes rfl hfetch hdecode).trans ht)

/-- Settles O45: by the phase of the history. -/
theorem skipIsOnlyForAfterAFault : Obligations.SkipIsOnlyForAfterAFault := by
  unfold Obligations.SkipIsOnlyForAfterAFault
  refine fun s ops ha => ⟨fun hphase => ?_, step_of_skip_without_fault ha⟩
  exact ⟨_, step_of_skip_after_fault ha hphase, skipInstruction_pc_toNat _, rfl⟩

end Sys2Proof.Machine
end

section
/-! PROOFS. load_program (spec/45_host_operations.md R132, R133; spec/70_reset_and_hazards.md R162). -/

namespace Sys2Proof.Machine

section
variable {s : State} {bytes : List Byte} {ops : List HostOp}

theorem loadProgram_of_le (h : bytes.length ≤ 3584) (s : State) :
    loadProgram bytes s = some (s.setMem (s.mem.writeBytes 0x200 bytes)) := by
  have hfits : romFits bytes = true := decide_eq_true h
  rw [loadProgram, if_pos hfits]

theorem loadProgram_of_gt (h : bytes.length > 3584) (s : State) : loadProgram bytes s = none := by
  have hlong : romFits bytes ≠ true := fun hfits => absurd (of_decide_eq_true hfits) (Nat.not_le_of_gt h)
  rw [loadProgram, if_neg hlong]

theorem step_of_load (ha : s.host.agenda = .loadProgram bytes :: ops) (hphase : s.host.phase = .fresh)
    (hr : s.run = .running) (hlen : bytes.length ≤ 3584) :
    step s = .next (((s.setAgenda ops).setMem (s.mem.writeBytes 0x200 bytes)).setPhase .started) := by
  rw [step_of_agenda_cons ha, perform, performLoad, if_pos ⟨hphase, hr⟩, loadProgram_of_le hlen]
  rfl

theorem step_of_load_too_large (ha : s.host.agenda = .loadProgram bytes :: ops) (hphase : s.host.phase = .fresh)
    (hr : s.run = .running) (hlen : bytes.length > 3584) : step s = .fault .romTooLarge := by
  rw [step_of_agenda_cons ha, perform, performLoad, if_pos ⟨hphase, hr⟩, loadProgram_of_gt hlen]
  rfl

theorem step_of_load_out_of_order (ha : s.host.agenda = .loadProgram bytes :: ops)
    (h : s.host.phase ≠ .fresh ∨ s.run ≠ .running) : step s = .refused .loadOutOfOrder := by
  rw [step_of_agenda_cons ha, perform, performLoad]
  exact if_neg (not_and_or.mpr h)

end

/-- Settles O44: by whether the load is in order and the program fits; the bytes in memory are those of one transfer. -/
theorem loadProgramCopiesTheBytes : Obligations.LoadProgramCopiesTheBytes := by
  unfold Obligations.LoadProgramCopiesTheBytes
  refine fun s bytes ops ha => ⟨fun hphase hr hlen => ?_, step_of_load_too_large ha, step_of_load_out_of_order ha⟩
  refine ⟨_, step_of_load ha hphase hr hlen, fun k hk => ?_, fun a hout => ?_, rfl⟩
  · exact Memory.read_writeBytes_at s.mem 0x200 hk
  · exact Memory.read_writeBytes_outside hout

end Sys2Proof.Machine
end

section
/-! PROOFS. The address of a glyph (spec/42_index_memory.md R104), and the invariants at reset (spec/10_state.md R26). -/

namespace Sys2Proof.Machine

/-- Settles O23: FX29 writes I alone, with the address of the glyph. -/
theorem fontAddressIsFiveTimesTheDigit : Obligations.FontAddressIsFiveTimesTheDigit := by
  unfold Obligations.FontAddressIsFiveTimesTheDigit
  intro s x
  obtain ⟨t, ht, hI, hframe⟩ := exec_of_setI (i := .ldF x) (s := s) rfl
  exact ⟨t, ht, by rw [hI, glyphAddress_toNat], hframe⟩

/-- Settles O55: the reset with the default font is one of the resets with any font. -/
theorem theInvariantsHoldAtReset : Obligations.TheInvariantsHoldAtReset := by
  unfold Obligations.TheInvariantsHoldAtReset
  rw [← State.resetWith_default]
  exact ⟨State.resetWith_inv defaultFont, State.resetWith_pcBound defaultFont⟩

end Sys2Proof.Machine
end
